-- ==== Sys2Proof/Word.lean ====
section
/-! DEFINITION. The two value types of the block (00_scope R9, R10): bytes and 16-bit words, both unsigned.
Everything computed from them (byte order, extension, wrapping additions, pages) is in `Machine/Ops.lean`. -/

namespace Sys2Proof

/-- A byte, 0..255 (R10); the width of `A`, `X`, `Y`, `SP`, `P` and of a memory cell (R9, XLEN). -/
abbrev Byte := BitVec 8

/-- A 16-bit word, 0..65535 (R10); the width of `pc` and of every address (R9, ALEN). -/
abbrev Word := BitVec 16

end Sys2Proof
end

