-- ==== Sys2Proof/Syntax.lean ====
section
/-! DEFINITION. The instructions of spec/opcode_table.json, one constructor per row, with their addressing modes and
formats (30_encoding R50 to R54). Bytes and opcodes are in `Decode.lean`. -/

namespace Sys2Proof

/-- The eight addressing modes (R59, R64 to R71); no other exists (R72). -/
inductive Mode where
  | immediate
  | zeroPage
  | zeroPageX
  | absolute
  | absoluteX
  | absoluteY
  | indirectX
  | indirectY
  deriving DecidableEq, Repr

/-- The two instruction formats (R51): one operand byte, or a 16-bit address low byte first. -/
inductive Format where
  | opD8
  | opA16
  deriving DecidableEq, Repr

/-- Bytes of an instruction of the format, the opcode byte included (R51). -/
def Format.length : Format → Nat
  | .opD8 => 2
  | .opA16 => 3

/-- The format of a mode (R51). -/
def Mode.format : Mode → Format
  | .immediate | .zeroPage | .zeroPageX | .indirectX | .indirectY => .opD8
  | .absolute | .absoluteX | .absoluteY => .opA16

/-- The load-accumulator instructions, with their operand bytes as fetched (R51: `d8`, or `lo` and `hi`). -/
inductive Instr where
  /-- LDA.imm, `LDA #$nn` (R86). -/
  | ldaImm (d8 : Byte)
  /-- LDA.zp, `LDA $nn` (R87). -/
  | ldaZp (d8 : Byte)
  /-- LDA.zpx, `LDA $nn,X` (R88). -/
  | ldaZpX (d8 : Byte)
  /-- LDA.abs, `LDA $hhll` (R89). -/
  | ldaAbs (lo hi : Byte)
  /-- LDA.absx, `LDA $hhll,X` (R90). -/
  | ldaAbsX (lo hi : Byte)
  /-- LDA.absy, `LDA $hhll,Y` (R91). -/
  | ldaAbsY (lo hi : Byte)
  /-- LDA.indx, `LDA ($nn,X)` (R92). -/
  | ldaIndX (d8 : Byte)
  /-- LDA.indy, `LDA ($nn),Y` (R93). -/
  | ldaIndY (p : Byte)
  deriving DecidableEq, Repr

/-- The addressing mode of an instruction (R54). -/
def Instr.mode : Instr → Mode
  | .ldaImm _ => .immediate
  | .ldaZp _ => .zeroPage
  | .ldaZpX _ => .zeroPageX
  | .ldaAbs _ _ => .absolute
  | .ldaAbsX _ _ => .absoluteX
  | .ldaAbsY _ _ => .absoluteY
  | .ldaIndX _ => .indirectX
  | .ldaIndY _ => .indirectY

/-- The operand bytes in ascending address order (R51). -/
def Instr.operands : Instr → List Byte
  | .ldaImm d8 => [d8]
  | .ldaZp d8 => [d8]
  | .ldaZpX d8 => [d8]
  | .ldaAbs lo hi => [lo, hi]
  | .ldaAbsX lo hi => [lo, hi]
  | .ldaAbsY lo hi => [lo, hi]
  | .ldaIndX d8 => [d8]
  | .ldaIndY p => [p]

/-- Bytes of the instruction, the opcode byte included (R54). -/
def Instr.length (i : Instr) : Nat := i.mode.format.length

end Sys2Proof
end

