-- ==== Sys2Proof/WellFormed.lean ====
section
/-! DEFINITION. When an instruction is well formed. R57 puts no condition on the value of an operand byte, so the one
check is that the operand bytes are as many as the format has (30_encoding R51). -/

namespace Sys2Proof

/-- The check: a list of operand bytes fills the format exactly (R51). -/
def operandsFit (f : Format) (operands : List Byte) : Bool :=
  operands.length + 1 == f.length

/-- An instruction is well formed when its operand bytes fill its format. -/
def Instr.wellFormed (i : Instr) : Bool :=
  operandsFit i.mode.format i.operands

end Sys2Proof
end

