-- ==== Sys2Proof/Decode.lean ====
section
/-! DEFINITION. The opcode map of 30_encoding R54, the decoder on byte sequences (R50 to R56), and after it the encoder,
both read from the one table. Six of the eight opcode bytes are the spec's from general knowledge (92 D1): log 1. -/

namespace Sys2Proof

/-- Why a byte sequence is not an instruction. -/
inductive DecodeError where
  /-- The opcode byte has no handler (R56). -/
  | unknownOpcode (opcode : Byte)
  /-- The sequence ends before the instruction does (no opcode byte, or too few operand bytes for R51). -/
  | truncated
  deriving DecidableEq, Repr

/-- The opcode map (R54): mask 0xFF, so the whole byte is matched (R55). -/
def opcodeTable : List (Byte × Mode) :=
  [ (0xA9, .immediate),
    (0xA5, .zeroPage),
    (0xB5, .zeroPageX),
    (0xAD, .absolute),
    (0xBD, .absoluteX),
    (0xB9, .absoluteY),
    (0xA1, .indirectX),
    (0xB1, .indirectY) ]

/-- The mode a table gives an opcode byte, or none: "'no handler registered' [is] a first-class, checkable state" (R55). -/
def modeIn : List (Byte × Mode) → Byte → Option Mode
  | [], _ => none
  | (code, m) :: rows, op => if op = code then some m else modeIn rows op

/-- Decoding of an opcode byte: total on the 256 byte values (R55). -/
def decodeOpcode (op : Byte) : Option Mode := modeIn opcodeTable op

/-- Bytes that `step` fetches for an opcode byte: the instruction's length, told from the opcode byte alone, and the
opcode byte only where it has no handler (R53). -/
def fetchLength (op : Byte) : Nat :=
  match decodeOpcode op with
  | some m => m.format.length
  | none => 1

/-- An OP-D8 instruction takes one operand byte (R51). -/
def takeD8 (build : Byte → Instr) : List Byte → Except DecodeError (Instr × List Byte)
  | d8 :: rest => .ok (build d8, rest)
  | [] => .error .truncated

/-- An OP-A16 instruction takes two operand bytes, `lo` first (R51). -/
def takeA16 (build : Byte → Byte → Instr) : List Byte → Except DecodeError (Instr × List Byte)
  | lo :: hi :: rest => .ok (build lo hi, rest)
  | _ => .error .truncated

/-- The operand bytes of a mode, and the instruction they make. -/
def decodeOperands (m : Mode) (bytes : List Byte) : Except DecodeError (Instr × List Byte) :=
  match m with
  | .immediate => takeD8 .ldaImm bytes
  | .zeroPage => takeD8 .ldaZp bytes
  | .zeroPageX => takeD8 .ldaZpX bytes
  | .absolute => takeA16 .ldaAbs bytes
  | .absoluteX => takeA16 .ldaAbsX bytes
  | .absoluteY => takeA16 .ldaAbsY bytes
  | .indirectX => takeD8 .ldaIndX bytes
  | .indirectY => takeD8 .ldaIndY bytes

/-- The decoder: bytes in ascending address order, opcode byte first (R50, R51); answers the instruction and the bytes
after it, or says by name why there is none. -/
def decode : List Byte → Except DecodeError (Instr × List Byte)
  | [] => .error .truncated
  | op :: rest =>
    match decodeOpcode op with
    | none => .error (.unknownOpcode op)
    | some m => decodeOperands m rest

/-- The opcode byte a table gives a mode. -/
def opcodeIn : List (Byte × Mode) → Mode → Byte
  | [], _ => 0x00
  | (code, m) :: rows, wanted => if wanted = m then code else opcodeIn rows wanted

/-- The opcode byte of a mode (R54). -/
def encodeOpcode (m : Mode) : Byte := opcodeIn opcodeTable m

/-- The encoder: the instruction's bytes in ascending address order (R51). -/
def encode (i : Instr) : List Byte := encodeOpcode i.mode :: i.operands

/-- The bytes of an instruction given as a number: byte 0 is bits 7..0, byte 1 bits 15..8, byte 2 bits 23..16, and every
bit from `nbits` up is 0 (opcode_table.json: "bytes in ascending address order"). -/
def tableBytes (nbits w : Nat) : List Byte :=
  let v := w % 2 ^ nbits
  [BitVec.ofNat 8 v, BitVec.ofNat 8 (v / 256), BitVec.ofNat 8 (v / 65536)]

/-- The instruction the decoder reads from a word numbered as opcode_table.json numbers it. -/
def decodeTableWord (nbits w : Nat) : Option Instr :=
  match decode (tableBytes nbits w) with
  | .ok (i, _) => some i
  | .error _ => none

end Sys2Proof
end

