-- ==== Sys2Proof/Config.lean ====
section
/-! DEFINITION. What is fixed for the machine (00_scope R9) and the free values: the parameter the spec leaves OPEN
(IMAGE_BASE), the register values before the first reset, and the uninterpreted texts of the diagnostics. A free
value is an opaque constant: no proof can learn what it is. -/

namespace Sys2Proof.Config

/-- MEM_SIZE: bytes of memory (R9). -/
def memSize : Nat := 65536

/-- ROM_BASE: the lowest read-only address (R9, R36). -/
def romBase : Word := 0x8000

/-- RESET_VECTOR: the address of the low byte of the reset vector (R9, R34). -/
def resetVectorLow : Word := 0xFFFC

/-- The address of the high byte of the reset vector (R9, R34). -/
def resetVectorHigh : Word := 0xFFFD

/-- SP_RESET: the stack pointer after reset (R9, R110). -/
def spReset : Byte := 0xFF

/-- STACK_BASE: the page the stack pointer addresses (R9, R17). -/
def stackBase : Word := 0x0100

/-- What every cell holds after power-on, and so what an address that memory does not list reads as
(R27, R31: "zero-initialized"). -/
def memoryFill : Byte := 0x00

/-- IMAGE_BASE, OPEN in R9 (92 D8): where `load_image` places byte 0. Free; log 10. -/
opaque imageBase : Word

/-- `x[A]` between power-on and the first reset, for one session: unspecified (R31, 92 D7). Free; log 6. -/
opaque powerOnA : Nat → Byte

/-- `x[X]` between power-on and the first reset: unspecified (R31, 92 D7). Free; log 6. -/
opaque powerOnX : Nat → Byte

/-- `x[Y]` between power-on and the first reset: unspecified (R31, 92 D7). Free; log 6. -/
opaque powerOnY : Nat → Byte

/-- `x[SP]` between power-on and the first reset: unspecified (R31, 92 D7). Free; log 6. -/
opaque powerOnSP : Nat → Byte

/-- `pc` between power-on and the first reset: unspecified (R31, 92 D7). Free; log 6. -/
opaque powerOnPC : Nat → Word

/-- The severity of a fatal report, from the operation's name and the context text: the source lists no values
(R107, 92 D16). Free; log 14. -/
opaque fatalSeverity : String → String → Nat

/-- The text of a fatal report's message, from the name of the cause, the failing address and, for an unknown
opcode, the byte (R107: the text itself is uninterpreted). Free; log 14. -/
opaque messageText : String → Nat → Option Byte → String

/-- The one-line context string, from `SP`, `pc`, `A`, `X`, `Y` (none: no value before the first reset) and `P`
(R108: the format is uninterpreted). Free; log 14. -/
opaque contextText :
  Option Byte → Option Word → Option Byte → Option Byte → Option Byte → Byte → String

/-- The severity, message text and context text of the reports an operation emits beyond those R107 requires, from
the operation's name, what it returned (its label and its numbers) and the context text (R107: "Whether other reports
(tracing) are emitted is not specified"). Free; log 14. -/
opaque otherReports : String → String → List Nat → String → List (Nat × String × Option String)

end Sys2Proof.Config
end

