-- ==== Sys2Proof/Machine/State.lean ====
section
/-! DEFINITION. The state of the block (10_state R13), its fatal conditions (60_exceptions R94), the reasons a call is
refused, and the state after power-on and after reset (10_state R31, R32). -/

namespace Sys2Proof.Machine

/-- The fatal conditions: the complete error taxonomy of R94, each with the information it records. A fatal stop inside
`step` is a next state whose `phase` holds one of these (R97, R99, log 3), so `step` never answers `Outcome.fault`. -/
inductive Fault where
  /-- Raised by the checked memory operations when the address exceeds the space. Unreachable with 16-bit addresses
  (R38, R95, log 13). Safe. -/
  | addressOutOfBounds (address : Nat)
  /-- Raised by a memory write to the read-only region; returned to the host that called `write`, the phase
  unchanged (R36, R96, log 20). Unsafe only if the hardware makes it fatal for a host write. -/
  | romWriteAttempt (address : Word)
  /-- Raised by `step` on an opcode byte with no handler: the address of that byte and the byte (R97, 92 D19, log 3).
  Safe. -/
  | unknownOpcode (address : Word) (opcode : Byte)
  deriving DecidableEq, Repr

/-- Why a call has no transition. -/
inductive Refusal where
  /-- An instruction that has no meaning yet: raised by no arm. Safe. -/
  | notModelled (mnemonic : String)
  /-- `step`, or a test-bench set, before the first reset (R76, R8(c), logs 5 and 17). Safe. -/
  | notReady
  /-- `step`, `reset` or a test-bench set after a fatal stop (R76, R100, R8(c), logs 4 and 17). Safe. -/
  | halted
  deriving DecidableEq, Repr

/-- The lifecycle latch (R28). -/
inductive Phase where
  | notReady
  | ready
  | halted (cause : Fault)
  deriving DecidableEq, Repr

/-- Memory, as the cells that differ from `Config.memoryFill`, addresses strictly rising (log 9). Its operations are in
`Machine/Ops.lean`. -/
abbrev Memory := List Host.Cell

/-- The complete state of the block (R13). -/
structure State where
  /-- `x[A]`, accumulator (R14). -/
  a : Byte
  /-- `x[X]`, index_x (R15). -/
  x : Byte
  /-- `x[Y]`, index_y (R16). -/
  y : Byte
  /-- `x[SP]`, stack_pointer (R17). -/
  sp : Byte
  /-- `pc`, program_counter (R19). -/
  pc : Word
  /-- `P`, the Status Register; bit 5 is stored and never addressed (R21, R25). -/
  p : Byte
  /-- `M`, the 65536 bytes of memory (R27). -/
  mem : Memory
  /-- The lifecycle latch (R28). -/
  phase : Phase
  /-- The cumulative cycle counter, an unbounded natural (R29). -/
  cycles : Nat
  deriving DecidableEq, Repr

/-- After power-on (R31, R109): memory and `P` zero, `NotReady`, no cycles; the five registers the spec gives no value
hold free values of the session (log 6). -/
def State.powerOn (session : Nat) : State :=
  { a := Config.powerOnA session
    x := Config.powerOnX session
    y := Config.powerOnY session
    sp := Config.powerOnSP session
    pc := Config.powerOnPC session
    p := 0x00
    mem := []
    phase := .notReady
    cycles := 0 }

/-- After power-on and `reset()` (R32, R110): `pc` is the little-endian word at 0xFFFC/0xFFFD of a memory that is zero
everywhere (log 15). -/
def State.reset : State :=
  { a := 0x00
    x := 0x00
    y := 0x00
    sp := Config.spReset
    pc := 0x0000
    p := 0x00
    mem := []
    phase := .ready
    cycles := 0 }

end Sys2Proof.Machine
end

