-- ==== Sys2Proof/Machine/Ops.lean ====
section
/-! DEFINITION. The named operations over memory and registers: byte order and address arithmetic (00_scope R10), the
Memory Subsystem (20_memory R35 to R40), the register file, the fetch primitives (41 R73, R74), the fatal stop
(60_exceptions R99) and reset (70 R110). -/

namespace Sys2Proof.Machine

/-! ## Values -/

/-- `zext_16(b)` (R10). -/
def zext16 (b : Byte) : Word := b.setWidth 16

/-- `word(hi, lo)`: the little-endian combination `hi * 256 + lo` (R10, R41). -/
def word (hi lo : Byte) : Word := hi ++ lo

/-- `page(w) = w & 0xFF00` (R10). -/
def page (w : Word) : Word := w &&& 0xFF00

/-! ## Memory -/

/-- The byte a memory holds at an address; an address that is not listed reads as `Config.memoryFill` (R27, R31). -/
def Memory.lookup : Memory → Nat → Byte
  | [], _ => Config.memoryFill
  | (k, v) :: cells, addr => if addr = k then v else Memory.lookup cells addr

/-- The memory with one byte replaced, in canonical form: storing `Config.memoryFill` leaves the address unlisted. -/
def Memory.put : Memory → Nat → Byte → Memory
  | [], addr, b => if b = Config.memoryFill then [] else [(addr, b)]
  | (k, v) :: cells, addr, b =>
    if addr < k then
      (if b = Config.memoryFill then (k, v) :: cells else (addr, b) :: (k, v) :: cells)
    else if addr = k then
      (if b = Config.memoryFill then cells else (addr, b) :: cells)
    else (k, v) :: Memory.put cells addr b

/-- The cells of a memory lie at or above `low` and below 0x10000, strictly rising, and none holds
`Config.memoryFill`. -/
def Memory.wfFrom : Nat → Memory → Bool
  | _, [] => true
  | low, (k, v) :: cells =>
    decide (low ≤ k) && decide (k < Config.memSize) && decide (v ≠ Config.memoryFill)
      && Memory.wfFrom (k + 1) cells

/-- The canonical form of memory (log 9). -/
def Memory.wf (m : Memory) : Bool := Memory.wfFrom 0 m

/-- The source's `read`, over an address type wide enough for its check to matter (R38, R95). -/
def Memory.read (m : Memory) (addr : Nat) : Except Fault Byte :=
  if addr < Config.memSize then .ok (Memory.lookup m addr)
  else .error (.addressOutOfBounds addr)

/-- The source's `write`: the bounds check, then the read-only region, then the store (R36, R38). -/
def Memory.write (m : Memory) (addr : Nat) (b : Byte) : Except Fault Memory :=
  if addr < Config.memSize then
    if Config.romBase.toNat ≤ addr then .error (.romWriteAttempt (BitVec.ofNat 16 addr))
    else .ok (Memory.put m addr b)
  else .error (.addressOutOfBounds addr)

/-- Bytes placed at ascending addresses, past the read-only check (R40). -/
def Memory.place : Memory → Nat → List Byte → Memory
  | m, _, [] => m
  | m, addr, b :: bytes => Memory.place (Memory.put m addr b) (addr + 1) bytes

/-- `load_image` at a given base: none where the image would overflow the space (R40). -/
def Memory.loadImage (m : Memory) (base : Nat) (bytes : List Byte) : Option Memory :=
  if base + bytes.length ≤ Config.memSize then some (Memory.place m base bytes) else none

/-- `MemRead(addr, 1)` in the engine: total, since the address has 16 bits (R35, R38). -/
def State.memRead (s : State) (addr : Word) : Byte := Memory.lookup s.mem addr.toNat

/-- `n` bytes of memory at ascending addresses from `addr`, modulo 65536 (R50). -/
def State.bytesFrom (s : State) : Word → Nat → List Byte
  | _, 0 => []
  | addr, n + 1 => s.memRead addr :: s.bytesFrom (addr + 1) n

/-- Bytes stored at ascending addresses from `addr`, modulo 65536, past the read-only check: how an instruction stands
where the engine will fetch it (log 15). -/
def State.placeFrom (s : State) : Word → List Byte → State
  | _, [] => s
  | addr, b :: bytes =>
    { s with mem := Memory.put s.mem addr.toNat b }.placeFrom (addr + 1) bytes

/-! ## Registers -/

/-- The four 8-bit registers `x[r]` (R11, R13); five independent cells with `pc` (R18). -/
inductive Reg where
  | A
  | X
  | Y
  | SP
  deriving DecidableEq, Repr

/-- `x[r]` (R11). -/
def State.reg (s : State) : Reg → Byte
  | .A => s.a
  | .X => s.x
  | .Y => s.y
  | .SP => s.sp

/-- `x[r] <- v` (R11). -/
def State.setReg (s : State) (r : Reg) (v : Byte) : State :=
  match r with
  | .A => { s with a := v }
  | .X => { s with x := v }
  | .Y => { s with y := v }
  | .SP => { s with sp := v }

/-- `pc <- w` (R11). -/
def State.setPc (s : State) (w : Word) : State := { s with pc := w }

/-- `P <- v` (R11). -/
def State.setP (s : State) (v : Byte) : State := { s with p := v }

/-- `phase <- f` (R11). -/
def State.setPhase (s : State) (f : Phase) : State := { s with phase := f }

/-- `M <- m`. -/
def State.setMem (s : State) (m : Memory) : State := { s with mem := m }

/-- `cycles <- cycles + c` (R29). -/
def State.addCycles (s : State) (c : Nat) : State := { s with cycles := s.cycles + c }

/-- The address `x[SP]` denotes, `0x0100 + x[SP]` (R17). -/
def State.stackAddress (s : State) : Word := Config.stackBase + zext16 s.sp

/-! ## Fetch -/

/-- `pc` moves past one fetched byte, modulo 65536 (R20, R73). -/
def State.passByte (s : State) : State := s.setPc (s.pc + 1)

/-- `pc` moves past two fetched bytes, modulo 65536 (R20, R74). -/
def State.passWord (s : State) : State := s.passByte.passByte

/-- `fetch_byte()`: the byte at `pc`, then `pc` past it (R73). -/
def fetchByte (s : State) : Byte × State := (s.memRead s.pc, s.passByte)

/-- `fetch_word()`: two fetched bytes, combined little-endian (R74). -/
def fetchWord (s : State) : Word × State :=
  let (lo, s) := fetchByte s
  let (hi, s) := fetchByte s
  (word hi lo, s)

/-! ## Fatal stop and reset -/

/-- Taking a fatal condition (R99): `phase <- Halted(cause)` and nothing else; nothing is saved and there is no handler.
There is no return from it (R100). The report is an output of the operation, `Machine/Diagnostics.lean`. -/
def fatalStop (cause : Fault) (s : State) : State := s.setPhase (.halted cause)

/-- The effect of `reset()` where it is enabled (R110), with both bytes of the vector (R111). -/
def resetEngine (s : State) : State :=
  let lo := s.memRead Config.resetVectorLow
  let hi := s.memRead Config.resetVectorHigh
  { s with
    pc := word hi lo
    sp := Config.spReset
    p := 0x00
    a := 0x00
    x := 0x00
    y := 0x00
    cycles := 0
    phase := .ready }

end Sys2Proof.Machine
end

