-- ==== Sys2Proof/Machine/Flags.lean ====
section
/-! DEFINITION. The Status Register: its seven named flags and their bit positions (10_state R21), its primitives `get`,
`set` and `clear` (R22), and the flag rule of the load-accumulator family (R23, 42 R82). -/

namespace Sys2Proof.Machine

/-- The seven named flags (R21); bit 5 has no name and cannot be addressed (R22). -/
inductive Flag where
  | negative
  | overflow
  | brk
  | decimal
  | interruptDisable
  | zero
  | carry
  deriving DecidableEq, Repr

/-- The bit position of a flag (R21). -/
def Flag.bit : Flag → Nat
  | .negative => 7
  | .overflow => 6
  | .brk => 4
  | .decimal => 3
  | .interruptDisable => 2
  | .zero => 1
  | .carry => 0

/-- The flag at a bit position: the other direction of the "bidirectional, exhaustive, constant table" (R21). -/
def Flag.ofBit : Nat → Option Flag
  | 7 => some .negative
  | 6 => some .overflow
  | 4 => some .brk
  | 3 => some .decimal
  | 2 => some .interruptDisable
  | 1 => some .zero
  | 0 => some .carry
  | _ => none

/-- `get(flag)` (R22). -/
def getFlag (p : Byte) (f : Flag) : Bool := p.getLsbD f.bit

/-- `set(flag, value)`: `P <- (P & ~(1 << bit(f))) | (b << bit(f))` (R22). -/
def setFlag (p : Byte) (f : Flag) (b : Bool) : Byte :=
  (p &&& ~~~((1 : Byte) <<< f.bit)) ||| ((if b then (1 : Byte) else 0) <<< f.bit)

/-- `clear()`: all eight bits, bit 5 included (R22). -/
def clearFlags : Byte := 0x00

/-- `P.f` of a state (R11). -/
def State.flag (s : State) (f : Flag) : Bool := getFlag s.p f

/-- `P.f <- b` of a state (R11). -/
def State.setFlag (s : State) (f : Flag) (b : Bool) : State :=
  s.setP (Machine.setFlag s.p f b)

/-- The Status Register after `P.Z <- (v == 0x00)` and `P.N <- (v[7] == 1)` (R23, R82). -/
def loadFlags (p v : Byte) : Byte :=
  setFlag (setFlag p .zero (v == 0)) .negative (v.getLsbD 7)

end Sys2Proof.Machine
end

