-- ==== Sys2Proof/Machine/Operands.lean ====
section
/-! DEFINITION. The eight addressing-mode resolvers (40_addressing_modes R59 to R71). A resolver is given the operand
bytes the decoder took from the instruction stream, with `pc` at the first of them, and moves `pc` past them; it writes
nothing else (R59). The same resolvers fetching their own bytes are in `Machine/Reference.lean`. -/

namespace Sys2Proof.Machine

/-- What a resolver with an address returns (R59): the effective address, whether a page was crossed, and the state with
`pc` past the operand bytes. -/
structure Resolved where
  ea : Word
  crossed : Bool
  st : State
  deriving DecidableEq, Repr

/-- `ReadWordZP(p)`: low byte at `p`, high byte at `(p + 1) & 0xFF`, both in page 0 (R60). -/
def State.readWordZP (s : State) (p : Byte) : Word :=
  word (s.memRead (zext16 (p + 1))) (s.memRead (zext16 p))

/-- `target = base +16 index`, the index unsigned (R62). -/
def indexed (base : Word) (index : Byte) : Word := base + zext16 index

/-- `crossed(base, target)`: the pages differ (R63). -/
def crossed (base target : Word) : Bool := page base != page target

/-- Immediate: the operand byte is the value; there is no address (R64, 90 C5). -/
def resolveImmediate (d8 : Byte) (s : State) : Byte × State := (d8, s.passByte)

/-- Zero Page (R65). -/
def resolveZeroPage (d8 : Byte) (s : State) : Resolved :=
  { ea := zext16 d8, crossed := false, st := s.passByte }

/-- Zero Page,X: the sum stays in page 0 (R66, R61). -/
def resolveZeroPageX (d8 : Byte) (s : State) : Resolved :=
  { ea := zext16 (d8 + s.reg .X), crossed := false, st := s.passByte }

/-- Absolute (R67). -/
def resolveAbsolute (lo hi : Byte) (s : State) : Resolved :=
  { ea := word hi lo, crossed := false, st := s.passWord }

/-- Absolute,X (R68; the spec's by analogy, 90 C1, 92 D2, log 2). -/
def resolveAbsoluteX (lo hi : Byte) (s : State) : Resolved :=
  let base := word hi lo
  let target := indexed base (s.reg .X)
  { ea := target, crossed := crossed base target, st := s.passWord }

/-- Absolute,Y (R69). -/
def resolveAbsoluteY (lo hi : Byte) (s : State) : Resolved :=
  let base := word hi lo
  let target := indexed base (s.reg .Y)
  { ea := target, crossed := crossed base target, st := s.passWord }

/-- Indirect,X: the index is added to the pointer's address, modulo 256 (R70). -/
def resolveIndirectX (d8 : Byte) (s : State) : Resolved :=
  { ea := s.readWordZP (d8 + s.reg .X), crossed := false, st := s.passByte }

/-- Indirect,Y: the index is added to the pointer's content (R71). -/
def resolveIndirectY (p : Byte) (s : State) : Resolved :=
  let base := s.readWordZP p
  let target := indexed base (s.reg .Y)
  { ea := target, crossed := crossed base target, st := s.passByte }

end Sys2Proof.Machine
end

