-- ==== Sys2Proof/Machine/Lda.lean ====
section
/-! DEFINITION. The meanings of the eight load-accumulator instructions (42_load_accumulator R86 to R93). A meaning is
entered with `pc` at the first operand byte, the opcode byte fetched (42, opening paragraph; log 16), and ends with the
cycle count added to `cycles` (41 R75). None can fail (R84). -/

namespace Sys2Proof.Machine

/-- `LoadA(v)`: the post-processing the family shares (R82). -/
def loadA (v : Byte) (s : State) : State := (s.setReg .A v).setP (loadFlags s.p v)

/-- The end of a handler that returns the count `c`: `cycles <- cycles + c` (R75, R29). -/
def complete (c : Nat) (s : State) : Host.Outcome State Fault Refusal := .next (s.addCycles c)

/-- The handler's data read and post-processing, after the resolver: `v <- MemRead(ea, 1)`, `LoadA(v)`, return `c`. -/
def loadFrom (r : Resolved) (c : Nat) : Host.Outcome State Fault Refusal :=
  complete c (loadA (r.st.memRead r.ea) r.st)

/-- "a cross adds exactly one extra cycle" (R63, R115). -/
def crossPenalty (b : Bool) : Nat := if b then 1 else 0

/-- LDA Immediate, 2 cycles (R86). -/
def execLdaImm (d8 : Byte) (s : State) : Host.Outcome State Fault Refusal :=
  let (v, s) := resolveImmediate d8 s
  complete 2 (loadA v s)

/-- LDA Zero Page, 3 cycles (R87). -/
def execLdaZp (d8 : Byte) (s : State) : Host.Outcome State Fault Refusal :=
  loadFrom (resolveZeroPage d8 s) 3

/-- LDA Zero Page,X, 4 cycles (R88). -/
def execLdaZpX (d8 : Byte) (s : State) : Host.Outcome State Fault Refusal :=
  loadFrom (resolveZeroPageX d8 s) 4

/-- LDA Absolute, 4 cycles (R89). -/
def execLdaAbs (lo hi : Byte) (s : State) : Host.Outcome State Fault Refusal :=
  loadFrom (resolveAbsolute lo hi s) 4

/-- LDA Absolute,X, 4 cycles, 5 on a page cross (R90). -/
def execLdaAbsX (lo hi : Byte) (s : State) : Host.Outcome State Fault Refusal :=
  let r := resolveAbsoluteX lo hi s
  loadFrom r (4 + crossPenalty r.crossed)

/-- LDA Absolute,Y, 4 cycles, 5 on a page cross (R91). -/
def execLdaAbsY (lo hi : Byte) (s : State) : Host.Outcome State Fault Refusal :=
  let r := resolveAbsoluteY lo hi s
  loadFrom r (4 + crossPenalty r.crossed)

/-- LDA Indirect,X, 6 cycles (R92). -/
def execLdaIndX (d8 : Byte) (s : State) : Host.Outcome State Fault Refusal :=
  loadFrom (resolveIndirectX d8 s) 6

/-- LDA Indirect,Y, 5 cycles, 6 on a page cross (R93). -/
def execLdaIndY (p : Byte) (s : State) : Host.Outcome State Fault Refusal :=
  let r := resolveIndirectY p s
  loadFrom r (5 + crossPenalty r.crossed)

end Sys2Proof.Machine
end

