-- ==== Sys2Proof/Machine/Engine.lean ====
section
/-! DEFINITION. Fetch, decode and dispatch of one instruction (41_fetch_dispatch R75, R76), and how an instruction is put
where the engine fetches it. `Machine/Step.lean` only calls these. -/

namespace Sys2Proof.Machine

/-- The bytes `step` takes from the instruction stream: the opcode byte at `pc` and the operand bytes it calls for; the
opcode byte only, where it has no handler (R53, R97). -/
def State.fetchedBytes (s : State) : List Byte :=
  s.bytesFrom s.pc (fetchLength (s.memRead s.pc))

/-- The `step` of an engine in phase `Ready` (R75): the opcode byte is fetched, then the handler runs; an opcode byte with
no handler is the fatal condition `UnknownOpcode` with its own address (R97). `fetchedBytes` is never too short, so that
is the only way to fail. -/
def stepReady (s : State) : Host.Outcome State Fault Refusal :=
  match decode s.fetchedBytes with
  | .ok (i, _) => exec i s.passByte
  | .error _ => .next (fatalStop (.unknownOpcode s.pc (s.memRead s.pc)) s.passByte)

/-- `step` has a transition only in phase `Ready` (R76). -/
def engineStep (s : State) : Host.Outcome State Fault Refusal :=
  match s.phase with
  | .notReady => .refused .notReady
  | .ready => stepReady s
  | .halted _ => .refused .halted

/-- The state with an instruction's bytes at `pc` and the engine ready to fetch them (log 15). -/
def placeAtPc (s : State) (bytes : List Byte) : State :=
  (s.placeFrom s.pc bytes).setPhase .ready

end Sys2Proof.Machine
end

