-- ==== Sys2Proof/Machine/Step.lean ====
section
/-! DEFINITION. One step of the machine: the source's `step()` (41_fetch_dispatch R75). -/

namespace Sys2Proof.Machine

/-- `step()` (R75 to R79). -/
def step (s : State) : Host.Outcome State Fault Refusal := engineStep s

/-- The state with the instruction of a table word stored where `step` fetches next, the engine in phase `Ready`
(log 15). -/
def State.withFetchWord (s : State) (nbits w : Nat) : State :=
  placeAtPc s (tableBytes nbits w)

end Sys2Proof.Machine
end

