-- ==== Sys2Proof/Machine/Diagnostics.lean ====
section
/-! DEFINITION. The diagnostics at the boundary: the context summary (60_exceptions R108) and the report event (R107).
They are outputs, not state (R13, R107); their texts are free values of Config (92 D16, log 14). -/

namespace Sys2Proof.Machine

/-- The context summary: `SP`, `pc`, `A`, `X`, `Y`, and `P` as R108 advises; none where the register holds no value yet
(R31, R109, log 6). -/
structure Context where
  sp : Option Byte
  pc : Option Word
  a : Option Byte
  x : Option Byte
  y : Option Byte
  p : Byte
  deriving DecidableEq, Repr

/-- The summary at the moment of the query (R108); before the first reset nothing reads the registers (R109). -/
def State.context (s : State) : Context :=
  match s.phase with
  | .notReady => { sp := none, pc := none, a := none, x := none, y := none, p := s.p }
  | _ => { sp := some s.sp, pc := some s.pc, a := some s.a, x := some s.x, y := some s.y, p := s.p }

/-- The one-line context string (R108). -/
def Context.text (c : Context) : String := Config.contextText c.sp c.pc c.a c.x c.y c.p

/-- One report (R107): severity, operation name, message (its text, and what it identifies: the cause with its failing
address, none where the spec does not say what a report is about) and the optional context string. -/
structure Report where
  severity : Nat
  operation : String
  identifies : Option Fault
  message : String
  context : Option String
  deriving DecidableEq, Repr

/-- The name of a cause (R94). -/
def Fault.name : Fault → String
  | .addressOutOfBounds _ => "AddressOutOfBounds"
  | .romWriteAttempt _ => "RomWriteAttempt"
  | .unknownOpcode _ _ => "UnknownOpcode"

/-- The failing address a cause records (R94). -/
def Fault.address : Fault → Nat
  | .addressOutOfBounds addr => addr
  | .romWriteAttempt addr => addr.toNat
  | .unknownOpcode addr _ => addr.toNat

/-- The byte a cause records, for `UnknownOpcode` (R94). -/
def Fault.opcode : Fault → Option Byte
  | .addressOutOfBounds _ => none
  | .romWriteAttempt _ => none
  | .unknownOpcode _ op => some op

/-- The report of a fatal condition (R99, R107), with the context at the stop. -/
def fatalReport (operation : String) (cause : Fault) (s : State) : Report :=
  { severity := Config.fatalSeverity operation s.context.text
    operation := operation
    identifies := some cause
    message := Config.messageText cause.name cause.address cause.opcode
    context := some s.context.text }

end Sys2Proof.Machine
end

