-- ==== Sys2Proof/Machine/Boundary.lean ====
section
/-! DEFINITION. The interface of the block at transaction level (00_scope R7, R8): the operations the host invokes one at
a time, what each returns, the state after it and the reports it emits; and the end of a run (41_fetch_dispatch R81). -/

namespace Sys2Proof.Machine

/-- The host's operations (R7), and the test bench's sets between operations (R8(c)). -/
inductive HostOp where
  /-- Construction of the block: a new session (R109). The number names the session, for its free values (log 6). -/
  | powerOn (session : Nat)
  | loadImage (bytes : List Byte)
  | read (address : Word)
  | write (address : Word) (value : Byte)
  | reset
  | step
  | contextQuery
  | setReg (r : Reg) (v : Byte)
  | setPc (w : Word)
  | setFlag (f : Flag) (b : Bool)
  deriving DecidableEq, Repr

/-- What an operation returns to the host (R7). -/
inductive Response where
  /-- The operation returns nothing, or ok (R7). -/
  | done
  /-- `load_image` placed the image (R40). -/
  | accepted
  /-- `load_image` rejected the image; the spec's label (R40). -/
  | imageOverflow
  /-- The byte `read` returns (R35). -/
  | byte (v : Byte)
  /-- A failure of `read` or `write`, returned to the host (R36, R96). -/
  | failed (cause : Fault)
  /-- The cycle count of a completed `step` (R77(a)). -/
  | cycles (c : Nat)
  /-- The fatal condition of a `step` (R77(b)). -/
  | fatal (cause : Fault)
  /-- The context summary (R108). -/
  | context (c : Context)
  /-- The operation has no transition in this phase (R76, R100): nothing changes, nothing is returned. -/
  | refused (r : Refusal)
  deriving DecidableEq, Repr

/-- The outcome of an operation. -/
structure Reply where
  response : Response
  state : State
  reports : List Report
  deriving DecidableEq, Repr

/-- What a response is called in a report. -/
def Response.label : Response → String
  | .done => "done"
  | .accepted => "accepted"
  | .imageOverflow => "ImageOverflow"
  | .byte _ => "byte"
  | .failed cause => cause.name
  | .cycles _ => "cycles"
  | .fatal cause => cause.name
  | .context _ => "context"
  | .refused _ => "refused"

/-- The numbers a response carries. -/
def Response.numbers : Response → List Nat
  | .byte v => [v.toNat]
  | .failed cause => [cause.address]
  | .cycles c => [c]
  | .fatal cause => [cause.address]
  | .done | .accepted | .imageOverflow | .context _ | .refused _ => []

/-- The reports an operation may emit beyond those R107 requires. The spec allows any; that they are a function of the
operation's name, what it returned and the context is the model's form (DESIGN CHOICE, log 14). -/
def otherReports (operation : String) (r : Response) (s : State) : List Report :=
  (Config.otherReports operation r.label r.numbers s.context.text).map
    fun (severity, message, context) =>
      { severity := severity
        operation := operation
        identifies := none
        message := message
        context := context }

/-- An operation that ran: its response, its state, and whatever non-fatal reports it emits. -/
def ran (operation : String) (r : Response) (s : State) : Reply :=
  { response := r, state := s, reports := otherReports operation r s }

/-- An operation that has no transition. -/
def refuse (r : Refusal) (s : State) : Reply :=
  { response := .refused r, state := s, reports := [] }

/-- A `step` that ends in a fatal condition (R99): the condition is returned and its report emitted. The spec does not say
where that report stands among the further ones it leaves open (R107); that it comes first is the model's choice (DESIGN
CHOICE, log 14). -/
def stopped (cause : Fault) (t : State) : Reply :=
  { response := .fatal cause
    state := t
    reports := fatalReport "step" cause t :: otherReports "step" (.fatal cause) t }

/-- What an operation on a state does, unless the engine is `Halted`: there registers, flags, memory and `cycles` keep
the values they had at the stop (R100), so it is refused. -/
def unlessHalted (s : State) (reply : Reply) : Reply :=
  match s.phase with
  | .halted _ => refuse .halted s
  | .notReady | .ready => reply

/-- `load_image(bytes)` (R40). An image that fits is not placed in `Halted` (R100; that the call is then answered as
refused: log 11). -/
def hostLoadImage (bytes : List Byte) (s : State) : Reply :=
  match Memory.loadImage s.mem Config.imageBase.toNat bytes with
  | some m => unlessHalted s (ran "load_image" .accepted (s.setMem m))
  | none => ran "load_image" .imageOverflow s

/-- `read(address)` (R35), in `Halted` too (R100). -/
def hostRead (address : Word) (s : State) : Reply :=
  match Memory.read s.mem address.toNat with
  | .ok v => ran "read" (.byte v) s
  | .error cause => ran "read" (.failed cause) s

/-- `write(address, value)`: a failure is a result returned to the host, the phase unchanged (R36, R96). A byte is not
stored in `Halted` (R100; that the call is then answered as refused: log 11). -/
def hostWrite (address : Word) (value : Byte) (s : State) : Reply :=
  match Memory.write s.mem address.toNat value with
  | .ok m => unlessHalted s (ran "write" .done (s.setMem m))
  | .error cause => ran "write" (.failed cause) s

/-- `reset()`: enabled in `NotReady` and `Ready`, refused in `Halted` (R110, R112, R100). -/
def hostReset (s : State) : Reply :=
  unlessHalted s (ran "reset" .done (resetEngine s))

/-- `step()` as the host sees it (R75, R77): the count a completed step returns is what it adds to `cycles` (R29); a step
that ends in `Halted` returns the fatal condition and emits its report (R97, R99). A step of this block never answers
`Outcome.fault` (log 3). Such an answer would be a memory failure in the middle of the step, a fatal condition whose
registers and `pc` the spec leaves at any value (R95, 93 U3); that this arm, which no state reaches, keeps those from
before the step is the model's choice (DESIGN CHOICE, log 25). -/
def hostStep (s : State) : Reply :=
  match step s with
  | .refused r => refuse r s
  | .fault cause => stopped cause (fatalStop cause s)
  | .next t =>
    match t.phase with
    | .halted cause => stopped cause t
    | .notReady | .ready => ran "step" (.cycles (t.cycles - s.cycles)) t

/-- A test-bench set, of a `Ready` engine only (R8(c), log 17). -/
def benchSet (t : State) (s : State) : Reply :=
  match s.phase with
  | .notReady => refuse .notReady s
  | .ready => ran "test_bench" .done t
  | .halted _ => refuse .halted s

/-- One operation of the host, run to completion (R7). -/
def hostOp (op : HostOp) (s : State) : Reply :=
  match op with
  | .powerOn session => ran "power_on" .done (State.powerOn session)
  | .loadImage bytes => hostLoadImage bytes s
  | .read address => hostRead address s
  | .write address value => hostWrite address value s
  | .reset => hostReset s
  | .step => hostStep s
  | .contextQuery => ran "context" (.context s.context) s
  | .setReg r v => benchSet (s.setReg r v) s
  | .setPc w => benchSet (s.setPc w) s
  | .setFlag f b => benchSet (s.setFlag f b) s

/-- How a run of a chosen number of steps ends (R81). -/
inductive RunEnd where
  /-- (a) after the steps the host chose. -/
  | afterSteps (s : State)
  /-- (b) at the first step that raises a fatal condition, in phase `Halted`: never a successful end. -/
  | atFatal (cause : Fault) (s : State)
  /-- There is no run: the phase is not `Ready` (R76, log 24). -/
  | refused (r : Refusal)
  deriving DecidableEq, Repr

/-- A run (R81): `step` called `n` times from a `Ready` state, ending early at the first fatal condition. R81 has runs
from a `Ready` launch state only; that from another phase the answer is the refusal of that phase, for a run of no steps
too, is the model's choice (DESIGN CHOICE, log 24). -/
def runFrom : Nat → State → RunEnd
  | 0, s =>
    match s.phase with
    | .notReady => .refused .notReady
    | .ready => .afterSteps s
    | .halted _ => .refused .halted
  | n + 1, s =>
    match (hostStep s).response with
    | .fatal cause => .atFatal cause (hostStep s).state
    | .refused r => .refused r
    | _ => runFrom n (hostStep s).state

end Sys2Proof.Machine
end

