-- ==== Sys2Proof/Machine/Reference.lean ====
section
/-! DEFINITION. The spec's own pseudocode of `step`, the resolvers and the handlers (40 R60 to R71, 41 R73 to R75, 42 R86 to
R93), transcribed statement by statement: each routine fetches its own bytes from memory, and every `MemRead` is recorded
in the order it happens (20_memory R45, 92 D17, log 16). It is a second reading of the spec to hold `step` against; no
meaning calls it. -/

namespace Sys2Proof.Machine.Reference

/-- A point inside an operation: the state, and the addresses read so far, oldest first. -/
structure Point where
  st : State
  reads : List Word
  deriving DecidableEq, Repr

/-- `MemRead(addr, 1)`. -/
def memRead (addr : Word) (e : Point) : Byte × Point :=
  (e.st.memRead addr, { e with reads := e.reads ++ [addr] })

/-- `fetch_byte()` (R73). -/
def fetchByte (e : Point) : Byte × Point :=
  let (b, e) := memRead e.st.pc e
  (b, { e with st := e.st.setPc (e.st.pc + 1) })

/-- `fetch_word()` (R74). -/
def fetchWord (e : Point) : Word × Point :=
  let (lo, e) := fetchByte e
  let (hi, e) := fetchByte e
  (word hi lo, e)

/-- `ReadWordZP(p)` (R60). -/
def readWordZP (p : Byte) (e : Point) : Word × Point :=
  let (lo, e) := memRead (zext16 p) e
  let (hi, e) := memRead (zext16 (p + 1)) e
  (word hi lo, e)

/-- `LoadA(v)` (R82). -/
def loadA (v : Byte) (e : Point) : Point :=
  let s := e.st.setReg .A v
  let s := s.setFlag .zero (v == 0)
  let s := s.setFlag .negative (v.getLsbD 7)
  { e with st := s }

/-- `v <- MemRead(ea, 1)` and `LoadA(v)`. -/
def loadAt (ea : Word) (e : Point) : Point :=
  let (v, e) := memRead ea e
  loadA v e

/-- `ResolveImmediate` (R64), `LDA_Immediate` (R86). -/
def ldaImmediate (e : Point) : Nat × Point :=
  let (v, e) := fetchByte e
  (2, loadA v e)

/-- `ResolveZeroPage` (R65), `LDA_ZeroPage` (R87). -/
def ldaZeroPage (e : Point) : Nat × Point :=
  let (d8, e) := fetchByte e
  (3, loadAt (zext16 d8) e)

/-- `ResolveZeroPageX` (R66), `LDA_ZeroPageX` (R88). -/
def ldaZeroPageX (e : Point) : Nat × Point :=
  let (d8, e) := fetchByte e
  (4, loadAt (zext16 (d8 + e.st.reg .X)) e)

/-- `ResolveAbsolute` (R67), `LDA_Absolute` (R89). -/
def ldaAbsolute (e : Point) : Nat × Point :=
  let (ea, e) := fetchWord e
  (4, loadAt ea e)

/-- `ResolveAbsoluteX` (R68), `LDA_AbsoluteX` (R90). -/
def ldaAbsoluteX (e : Point) : Nat × Point :=
  let (base, e) := fetchWord e
  let target := base + zext16 (e.st.reg .X)
  let crossed := (base &&& 0xFF00) != (target &&& 0xFF00)
  (if crossed then 5 else 4, loadAt target e)

/-- `ResolveAbsoluteY` (R69), `LDA_AbsoluteY` (R91). -/
def ldaAbsoluteY (e : Point) : Nat × Point :=
  let (base, e) := fetchWord e
  let target := base + zext16 (e.st.reg .Y)
  let crossed := (base &&& 0xFF00) != (target &&& 0xFF00)
  (if crossed then 5 else 4, loadAt target e)

/-- `ResolveIndirectX` (R70), `LDA_IndirectX` (R92). -/
def ldaIndirectX (e : Point) : Nat × Point :=
  let (d8, e) := fetchByte e
  let (ea, e) := readWordZP (d8 + e.st.reg .X) e
  (6, loadAt ea e)

/-- `ResolveIndirectY` (R71), `LDA_IndirectY` (R93). -/
def ldaIndirectY (e : Point) : Nat × Point :=
  let (p, e) := fetchByte e
  let (base, e) := readWordZP p e
  let target := base + zext16 (e.st.reg .Y)
  let crossed := (base &&& 0xFF00) != (target &&& 0xFF00)
  (if crossed then 6 else 5, loadAt target e)

/-- The handler the dispatch of R75 selects, or none. -/
def handler (op : Byte) : Option (Point → Nat × Point) :=
  if op = 0xA9 then some ldaImmediate
  else if op = 0xA5 then some ldaZeroPage
  else if op = 0xB5 then some ldaZeroPageX
  else if op = 0xAD then some ldaAbsolute
  else if op = 0xBD then some ldaAbsoluteX
  else if op = 0xB9 then some ldaAbsoluteY
  else if op = 0xA1 then some ldaIndirectX
  else if op = 0xB1 then some ldaIndirectY
  else none

/-- `step()` of a `Ready` engine (R75): the point it ends at. -/
def stepReady (s : State) : Point :=
  let a := s.pc
  let (op, e) := fetchByte { st := s, reads := [] }
  match handler op with
  | some h =>
    let (c, e) := h e
    { e with st := e.st.addCycles c }
  | none => { e with st := e.st.setPhase (.halted (.unknownOpcode a op)) }

/-- `step()` (R75, R76). -/
def step (s : State) : Host.Outcome State Fault Refusal :=
  match s.phase with
  | .notReady => .refused .notReady
  | .ready => .next (stepReady s).st
  | .halted _ => .refused .halted

/-- The addresses a `step` reads, in order; none where it is refused. -/
def stepReads (s : State) : List Word :=
  match s.phase with
  | .ready => (stepReady s).reads
  | _ => []

end Sys2Proof.Machine.Reference
end

