-- ==== Sys2Proof/Safety.lean ====
section
/-! DEFINITION. The terms the claims use: the invariant of the state, the launch states of a claim (00_scope R8), a safe
run (41_fetch_dispatch R81), and what "this instruction loaded that byte and did nothing else" means. -/

namespace Sys2Proof.Machine

/-- A recorded stop is one `step` can make: an unknown opcode, with no handler, and `pc` one past it (R97, R98). -/
def stopExplained (s : State) : Bool :=
  match s.phase with
  | .halted (.unknownOpcode addr op) => decodeOpcode op == none && s.pc == addr + 1
  | .halted _ => false
  | _ => true

/-- The invariant of the state: memory in canonical form (log 9), bit 5 of `P` 0 (R25), and a stop that is explained. -/
abbrev State.Inv (s : State) : Prop :=
  Memory.wf s.mem = true ∧ s.p.getLsbD 5 = false ∧ stopExplained s = true

/-- A launch state of a claim: any `Ready` state, with any registers, flags and memory (R8(c), 92 D14). -/
abbrev State.Launch (s : State) : Prop := s.phase = .ready ∧ s.Inv

/-- A safe run of `n` steps: it ends after the steps the host chose, not at a fatal condition (R81). -/
def SafeRun (n : Nat) (s : State) : Prop := ∃ t, runFrom n s = .afterSteps t

/-- The bytes stand at ascending addresses from `pc`, modulo 65536: the instruction `step` fetches next (R50). -/
abbrev State.InstrAt (s : State) (bytes : List Byte) : Prop :=
  s.bytesFrom s.pc bytes.length = bytes

/-- `t` is `s` after a load of the byte `v` (R82, R83): the accumulator and the two flags the family writes hold what
`LoadA(v)` says, `pc` is `n` bytes on, `cycles` is `c` more, and nothing else is changed. -/
structure LoadEffect (s t : State) (v : Byte) (n c : Nat) : Prop where
  accumulator : t.a = v
  zero : t.flag .zero = decide (v.toNat = 0)
  negative : t.flag .negative = decide (128 ≤ v.toNat)
  otherFlags : ∀ f, f ≠ .zero → f ≠ .negative → t.flag f = s.flag f
  reservedBit : t.p.getLsbD 5 = s.p.getLsbD 5
  pc : t.pc = s.pc + BitVec.ofNat 16 n
  cycles : t.cycles = s.cycles + c
  indexX : t.x = s.x
  indexY : t.y = s.y
  stackPointer : t.sp = s.sp
  memory : t.mem = s.mem
  everyByte : ∀ addr, t.memRead addr = s.memRead addr
  phase : t.phase = s.phase

end Sys2Proof.Machine
end

