-- ==== Sys2Proof/Certificates/Slice0/Obligations.lean ====
section
/-! DEFINITION. The statements about the model, each from the numbered rules of spec/. They compute addresses, values and
costs in natural-number arithmetic, beside the model's bit-vector definitions. -/

open Sys2Proof Sys2Proof.Machine

/-! ## Encoding -/

/-- Words written out from the table of R54 (six of the opcode bytes are the spec's decision D1, log 1) decode to the
instruction they stand for. -/
def Obligations.TableWordsDecodeToTheirInstruction : Prop :=
  decode [0xA9, 0x05] = .ok (.ldaImm 0x05, []) ∧
  decode [0xA5, 0x10] = .ok (.ldaZp 0x10, []) ∧
  decode [0xB5, 0xF0] = .ok (.ldaZpX 0xF0, []) ∧
  decode [0xAD, 0x34, 0x12] = .ok (.ldaAbs 0x34 0x12, []) ∧
  decode [0xBD, 0xF0, 0x12] = .ok (.ldaAbsX 0xF0 0x12, []) ∧
  decode [0xB9, 0xF0, 0x00] = .ok (.ldaAbsY 0xF0 0x00, []) ∧
  decode [0xA1, 0x10] = .ok (.ldaIndX 0x10, []) ∧
  decode [0xB1, 0xFF] = .ok (.ldaIndY 0xFF, [])

/-- R51, R54 (opcode bytes: log 1), R57: decoding an encoded instruction gives it back with every operand, and leaves the bytes after it. -/
def Obligations.DecodeOfEncodeIsTheInstruction : Prop :=
  ∀ (i : Instr) (rest : List Byte),
    i.wellFormed = true ∧ decode (encode i ++ rest) = .ok (i, rest)

/-- R51, R54, R55: whatever the decoder reads, its encoding and the rest are the bytes it was given. -/
def Obligations.EncodeOfDecodeIsTheBytes : Prop :=
  ∀ (bytes : List Byte) (i : Instr) (rest : List Byte),
    decode bytes = .ok (i, rest) → encode i ++ rest = bytes

/-- R56: the 248 byte values outside the table have no handler, and a `Ready` engine that fetches one stops with
`UnknownOpcode`; there is no silent skip. Which eight bytes the table has is the spec's decision D1 (log 1); the stop is
a state by its decision D5 (log 3). -/
def Obligations.UnlistedOpcodesHaveNoHandler : Prop :=
  ((List.range 256).filter fun n => (decodeOpcode (BitVec.ofNat 8 n)).isNone).length = 248 ∧
  ∀ op : Byte, op ∉ [(0xA9 : Byte), 0xA5, 0xB5, 0xAD, 0xBD, 0xB9, 0xA1, 0xB1] →
    (∀ rest, decode (op :: rest) = .error (.unknownOpcode op)) ∧
    ∀ s : State, s.phase = .ready → s.memRead s.pc = op →
      ∃ t, step s = .next t ∧ t.phase = .halted (.unknownOpcode s.pc op)

/-- R53: the length is told from the opcode byte alone, whatever follows it; a byte outside the table has no length and
the step consumes that byte only (the stop as a state: 92 D5, log 3). -/
def Obligations.LengthIsToldByTheOpcodeByte : Prop :=
  (∀ (op : Byte) (rest₁ rest₂ r₁ r₂ : List Byte) (i₁ i₂ : Instr),
    decode (op :: rest₁) = .ok (i₁, r₁) → decode (op :: rest₂) = .ok (i₂, r₂) →
      i₁.length = i₂.length ∧ (op :: rest₁).length = i₁.length + r₁.length) ∧
  ∀ s : State, s.phase = .ready → decodeOpcode (s.memRead s.pc) = none →
    ∃ t, step s = .next t ∧ t.pc = s.pc + 1 ∧
      t.phase = .halted (.unknownOpcode s.pc (s.memRead s.pc))

/-! ## The step -/

/-- R75: when the bytes at `pc` decode to an instruction, a step of a `Ready` engine is that instruction's meaning, entered
with `pc` past the opcode byte. -/
def Obligations.StepRunsTheDecodedInstruction : Prop :=
  ∀ (s : State) (i : Instr) (rest : List Byte), s.phase = .ready →
    decode (s.bytesFrom s.pc 3) = .ok (i, rest) →
    step s = exec i { s with pc := s.pc + 1 }

/-- R75 and the rules it calls: the step is the spec's pseudocode, in which every routine fetches its own bytes. -/
def Obligations.StepIsTheSpecsPseudocode : Prop :=
  ∀ s : State, step s = Reference.step s

/-- R76, which is the spec's decision (92 D5, D7; logs 4 and 5): `step` has a transition only in phase `Ready`; elsewhere it
changes nothing and returns nothing. -/
def Obligations.StepIsRefusedOutsideReady : Prop :=
  ∀ s : State,
    (s.phase = .ready → ∃ t, step s = .next t) ∧
    (s.phase = .notReady → step s = .refused .notReady) ∧
    (∀ cause, s.phase = .halted cause → step s = .refused .halted) ∧
    (s.phase ≠ .ready → (hostOp .step s).state = s ∧ (hostOp .step s).reports = [] ∧
      ∃ r, (hostOp .step s).response = .refused r)

/-- R97: the state an unknown opcode leaves, its record (the recorded address: the spec's decision D19; the `Halted` state:
its decision D5, log 3), its report, and that no operand byte is fetched. That the report carries the context string, which
R107 makes optional, is the model's choice (92 D16, log 14). Which bytes are unknown is the spec's decision D1 (log 1). -/
def Obligations.UnknownOpcodeStopsTheEngine : Prop :=
  ∀ (s : State) (op : Byte), s.phase = .ready → s.memRead s.pc = op →
    op ∉ [(0xA9 : Byte), 0xA5, 0xB5, 0xAD, 0xBD, 0xB9, 0xA1, 0xB1] →
    let t : State := { s with pc := s.pc + 1, phase := .halted (.unknownOpcode s.pc op) }
    step s = .next t ∧
    (hostOp .step s).state = t ∧
    (hostOp .step s).response = .fatal (.unknownOpcode s.pc op) ∧
    (∃ r ∈ (hostOp .step s).reports, r.operation = "step" ∧
      r.identifies = some (.unknownOpcode s.pc op) ∧ r.context = some t.context.text) ∧
    Reference.stepReads s = [s.pc]

/-- R77: a step of a `Ready` engine returns exactly one of a count from 2 to 6 and the fatal condition `UnknownOpcode`,
which leaves `cycles` alone (the spec's decision D10, log 12). -/
def Obligations.StepReturnsACountOrUnknownOpcode : Prop :=
  ∀ s : State, s.phase = .ready →
    (∃ c, 2 ≤ c ∧ c ≤ 6 ∧ (hostOp .step s).response = .cycles c ∧
      (hostOp .step s).state.phase = .ready ∧
      (hostOp .step s).state.cycles = s.cycles + c) ∨
    (∃ addr op, (hostOp .step s).response = .fatal (.unknownOpcode addr op) ∧
      (hostOp .step s).state.phase = .halted (.unknownOpcode addr op) ∧
      (hostOp .step s).state.cycles = s.cycles)

/-- R78: what a completed step changes, and what a fatal one changes. -/
def Obligations.StepChangesOnlyWhatTheRuleLists : Prop :=
  ∀ s : State, s.phase = .ready → ∃ t, step s = .next t ∧
    ((t.phase = .ready ∧
        t = { s with pc := t.pc, a := t.a, p := t.p, cycles := t.cycles } ∧
        (∀ f, f ≠ .zero → f ≠ .negative → t.flag f = s.flag f) ∧
        t.p.getLsbD 5 = s.p.getLsbD 5 ∧
        ∃ i rest, decode (s.bytesFrom s.pc 3) = .ok (i, rest) ∧
          t.pc = s.pc + BitVec.ofNat 16 i.length) ∨
      ((∃ cause, t.phase = .halted cause) ∧ t = { s with pc := s.pc + 1, phase := t.phase }))

/-- R79: a step is bounded work, at most 5 memory reads. -/
def Obligations.StepReadsAtMostFiveBytes : Prop :=
  ∀ s : State, (Reference.stepReads s).length ≤ 5 ∧
    (s.phase = .ready → (Reference.stepReads s).head? = some s.pc)

/-- R19, R80, R20 (the wrap: the spec's decision D3, log 7): after a completed instruction `pc` is at the byte after it, modulo 65536; no instruction sets it to anything
else. -/
def Obligations.PcAdvancesByTheInstructionLength : Prop :=
  ∀ (s : State) (i : Instr) (rest : List Byte), s.phase = .ready →
    decode (s.bytesFrom s.pc 3) = .ok (i, rest) →
    (i.length = 2 ∨ i.length = 3) ∧
    ∃ t, step s = .next t ∧ t.pc.toNat = (s.pc.toNat + i.length) % 65536

/-! ## The eight instructions: result, frame, completion, encoding, reads -/

/-- R86. -/
def Obligations.LdaImmediateLoadsItsOperand : Prop :=
  ∀ (d8 : Byte) (s : State),
    encode (.ldaImm d8) = [0xA9, d8] ∧
    (∃ t, exec (.ldaImm d8) s = .next t ∧ LoadEffect s t d8 1 2) ∧
    (s.phase = .ready → s.InstrAt [0xA9, d8] →
      (∃ t, step s = .next t ∧ LoadEffect s t d8 2 2) ∧
      Reference.stepReads s = [s.pc, s.pc + 1])

/-- R87 (opcode byte: 92 D1, log 1). -/
def Obligations.LdaZeroPageLoadsFromPageZero : Prop :=
  ∀ (d8 : Byte) (s : State),
    let ea := BitVec.ofNat 16 d8.toNat
    encode (.ldaZp d8) = [0xA5, d8] ∧
    (∃ t, exec (.ldaZp d8) s = .next t ∧ LoadEffect s t (s.memRead ea) 1 3) ∧
    (s.phase = .ready → s.InstrAt [0xA5, d8] →
      (∃ t, step s = .next t ∧ LoadEffect s t (s.memRead ea) 2 3) ∧
      Reference.stepReads s = [s.pc, s.pc + 1, ea])

/-- R88 (opcode byte: 92 D1, log 1). -/
def Obligations.LdaZeroPageXWrapsInPageZero : Prop :=
  ∀ (d8 : Byte) (s : State),
    let ea := BitVec.ofNat 16 ((d8.toNat + s.x.toNat) % 256)
    encode (.ldaZpX d8) = [0xB5, d8] ∧
    (∃ t, exec (.ldaZpX d8) s = .next t ∧ LoadEffect s t (s.memRead ea) 1 4) ∧
    (s.phase = .ready → s.InstrAt [0xB5, d8] →
      (∃ t, step s = .next t ∧ LoadEffect s t (s.memRead ea) 2 4) ∧
      Reference.stepReads s = [s.pc, s.pc + 1, ea])

/-- R89 (opcode byte: 92 D1, log 1). -/
def Obligations.LdaAbsoluteLoadsFromItsAddress : Prop :=
  ∀ (lo hi : Byte) (s : State),
    let ea := BitVec.ofNat 16 (hi.toNat * 256 + lo.toNat)
    encode (.ldaAbs lo hi) = [0xAD, lo, hi] ∧
    (∃ t, exec (.ldaAbs lo hi) s = .next t ∧ LoadEffect s t (s.memRead ea) 2 4) ∧
    (s.phase = .ready → s.InstrAt [0xAD, lo, hi] →
      (∃ t, step s = .next t ∧ LoadEffect s t (s.memRead ea) 3 4) ∧
      Reference.stepReads s = [s.pc, s.pc + 1, s.pc + 2, ea])

/-- R90 (opcode byte: 92 D1, log 1; the resolver: 92 D2, log 2; the wrap: 92 D4, log 8). -/
def Obligations.LdaAbsoluteXAddsXAndChargesACross : Prop :=
  ∀ (lo hi : Byte) (s : State),
    let base := hi.toNat * 256 + lo.toNat
    let target := (base + s.x.toNat) % 65536
    let ea := BitVec.ofNat 16 target
    let cost := if base / 256 = target / 256 then 4 else 5
    encode (.ldaAbsX lo hi) = [0xBD, lo, hi] ∧
    (∃ t, exec (.ldaAbsX lo hi) s = .next t ∧ LoadEffect s t (s.memRead ea) 2 cost) ∧
    (s.phase = .ready → s.InstrAt [0xBD, lo, hi] →
      (∃ t, step s = .next t ∧ LoadEffect s t (s.memRead ea) 3 cost) ∧
      Reference.stepReads s = [s.pc, s.pc + 1, s.pc + 2, ea])

/-- R91 (opcode byte: 92 D1, log 1; the wrap: 92 D4, log 8). -/
def Obligations.LdaAbsoluteYAddsYAndChargesACross : Prop :=
  ∀ (lo hi : Byte) (s : State),
    let base := hi.toNat * 256 + lo.toNat
    let target := (base + s.y.toNat) % 65536
    let ea := BitVec.ofNat 16 target
    let cost := if base / 256 = target / 256 then 4 else 5
    encode (.ldaAbsY lo hi) = [0xB9, lo, hi] ∧
    (∃ t, exec (.ldaAbsY lo hi) s = .next t ∧ LoadEffect s t (s.memRead ea) 2 cost) ∧
    (s.phase = .ready → s.InstrAt [0xB9, lo, hi] →
      (∃ t, step s = .next t ∧ LoadEffect s t (s.memRead ea) 3 cost) ∧
      Reference.stepReads s = [s.pc, s.pc + 1, s.pc + 2, ea])

/-- R92. -/
def Obligations.LdaIndirectXReadsThroughAnIndexedPointer : Prop :=
  ∀ (d8 : Byte) (s : State),
    let lowAt := BitVec.ofNat 16 ((d8.toNat + s.x.toNat) % 256)
    let highAt := BitVec.ofNat 16 ((d8.toNat + s.x.toNat + 1) % 256)
    let ea := BitVec.ofNat 16 ((s.memRead highAt).toNat * 256 + (s.memRead lowAt).toNat)
    encode (.ldaIndX d8) = [0xA1, d8] ∧
    (∃ t, exec (.ldaIndX d8) s = .next t ∧ LoadEffect s t (s.memRead ea) 1 6) ∧
    (s.phase = .ready → s.InstrAt [0xA1, d8] →
      (∃ t, step s = .next t ∧ LoadEffect s t (s.memRead ea) 2 6) ∧
      Reference.stepReads s = [s.pc, s.pc + 1, lowAt, highAt, ea])

/-- R93 (opcode byte: 92 D1, log 1; the wrap: 92 D4, log 8). -/
def Obligations.LdaIndirectYIndexesThePointersContent : Prop :=
  ∀ (p : Byte) (s : State),
    let lowAt := BitVec.ofNat 16 p.toNat
    let highAt := BitVec.ofNat 16 ((p.toNat + 1) % 256)
    let base := (s.memRead highAt).toNat * 256 + (s.memRead lowAt).toNat
    let target := (base + s.y.toNat) % 65536
    let ea := BitVec.ofNat 16 target
    let cost := if base / 256 = target / 256 then 5 else 6
    encode (.ldaIndY p) = [0xB1, p] ∧
    (∃ t, exec (.ldaIndY p) s = .next t ∧ LoadEffect s t (s.memRead ea) 1 cost) ∧
    (s.phase = .ready → s.InstrAt [0xB1, p] →
      (∃ t, step s = .next t ∧ LoadEffect s t (s.memRead ea) 2 cost) ∧
      Reference.stepReads s = [s.pc, s.pc + 1, lowAt, highAt, ea])

/-! ## The family -/

/-- R82: the shared post-processing, its outcomes by value, and that every instruction of the family ends with it. -/
def Obligations.EveryLoadSetsZeroAndNegativeFromItsValue : Prop :=
  (∀ (v : Byte) (s : State),
    (loadA v s).a = v ∧
    (v.toNat = 0 → (loadA v s).flag .zero = true ∧ (loadA v s).flag .negative = false) ∧
    (1 ≤ v.toNat → v.toNat ≤ 127 →
      (loadA v s).flag .zero = false ∧ (loadA v s).flag .negative = false) ∧
    (128 ≤ v.toNat → (loadA v s).flag .zero = false ∧ (loadA v s).flag .negative = true)) ∧
  ∀ (i : Instr) (s : State), ∃ t, exec i s = .next t ∧
    t.flag .zero = decide (t.a.toNat = 0) ∧ t.flag .negative = decide (128 ≤ t.a.toNat) ∧
    ¬(t.flag .zero = true ∧ t.flag .negative = true)

/-- R83: what no load changes; the old accumulator has no influence; an index register matters only to the modes it
indexes. -/
def Obligations.LoadsChangeAndReadNothingElse : Prop :=
  ∀ (i : Instr) (s : State), ∃ t, exec i s = .next t ∧
    t.x = s.x ∧ t.y = s.y ∧ t.sp = s.sp ∧
    (∀ f, f ≠ .zero → f ≠ .negative → t.flag f = s.flag f) ∧
    t.p.getLsbD 5 = s.p.getLsbD 5 ∧
    t.mem = s.mem ∧ (∀ addr, t.memRead addr = s.memRead addr) ∧ t.phase = s.phase ∧
    (∀ v, exec i (s.setReg .A v) = .next t) ∧
    (i.mode ∉ [Mode.zeroPageX, .absoluteX, .indirectX] →
      ∀ v, exec i (s.setReg .X v) = .next (t.setReg .X v)) ∧
    (i.mode ∉ [Mode.absoluteY, .indirectY] →
      ∀ v, exec i (s.setReg .Y v) = .next (t.setReg .Y v))

/-- R115 (opcode bytes: 92 D1, log 1): the cost a completed step returns, per mode, with the extra cycle of a page cross. -/
def Obligations.StepReturnsTheCostOfTheMode : Prop :=
  ∀ (s : State) (i : Instr) (rest : List Byte), s.phase = .ready →
    decode (s.bytesFrom s.pc 3) = .ok (i, rest) →
    let pointer (p : Nat) : Nat :=
      (s.memRead (BitVec.ofNat 16 ((p + 1) % 256))).toNat * 256 +
        (s.memRead (BitVec.ofNat 16 (p % 256))).toNat
    let extra (base index : Nat) : Nat := if base % 256 + index > 255 then 1 else 0
    (hostOp .step s).response = .cycles
      (match i with
        | .ldaImm _ => 2
        | .ldaZp _ => 3
        | .ldaZpX _ => 4
        | .ldaAbs _ _ => 4
        | .ldaAbsX lo hi => 4 + extra (hi.toNat * 256 + lo.toNat) s.x.toNat
        | .ldaAbsY lo hi => 4 + extra (hi.toNat * 256 + lo.toNat) s.y.toNat
        | .ldaIndX _ => 6
        | .ldaIndY p => 5 + extra (pointer p.toNat) s.y.toNat)

/-! ## The Status Register -/

/-- R21: the seven flags stand at bits 7, 6, 4, 3, 2, 1, 0, both ways, and bit 5 has no name. -/
def Obligations.FlagTableIsExhaustiveAndSkipsBitFive : Prop :=
  Flag.negative.bit = 7 ∧ Flag.overflow.bit = 6 ∧ Flag.brk.bit = 4 ∧ Flag.decimal.bit = 3 ∧
  Flag.interruptDisable.bit = 2 ∧ Flag.zero.bit = 1 ∧ Flag.carry.bit = 0 ∧
  (∀ f : Flag, Flag.ofBit f.bit = some f) ∧
  (∀ n : Nat, n < 8 → (Flag.ofBit n = none ↔ n = 5))

/-- R22: `get`, `set` and `clear`: `set` changes exactly its bit, the reserved bit included among the others. -/
def Obligations.SetFlagChangesExactlyItsBit : Prop :=
  (∀ (p : Byte) (f : Flag) (b : Bool),
    getFlag (setFlag p f b) f = b ∧
    (∀ n, n < 8 → n ≠ f.bit → (setFlag p f b).getLsbD n = p.getLsbD n) ∧
    (setFlag p f b).toNat = p.toNat - (getFlag p f).toNat * 2 ^ f.bit + b.toNat * 2 ^ f.bit) ∧
  ∀ n, clearFlags.getLsbD n = false

/-- R24: the flags C, I, D, B, V keep their value across every step, and setting one beforehand changes nothing else. -/
def Obligations.InertFlagsHaveNoEffectOnAStep : Prop :=
  ∀ (s : State) (f : Flag) (b : Bool), f ≠ .zero → f ≠ .negative → s.phase = .ready →
    ∃ t, step s = .next t ∧ t.flag f = s.flag f ∧
      step (s.setFlag f b) = .next (t.setFlag f b)

/-! ## Memory -/

/-- R35: `read` is defined for every address, the read-only region included, returns the stored byte and changes
nothing. -/
def Obligations.ReadReturnsTheByteAndChangesNothing : Prop :=
  ∀ (s : State) (addr : Word),
    (hostOp (.read addr) s).response = .byte (s.memRead addr) ∧ (hostOp (.read addr) s).state = s

/-- R37 and R100: the two laws of `write`, and that it changes no other cell (nor anything but memory). That a failed write
leaves the whole state as it was, the phase included, is the spec's decision D9 (log 20). In `Halted` memory keeps its
values (R100); that a write below the read-only region is refused there, and that one into it still fails by its name, is
the model's choice (log 11). -/
def Obligations.WriteStoresBelowRomAndFailsAbove : Prop :=
  ∀ (s : State) (addr : Word) (v : Byte), Memory.wf s.mem = true →
    let r := hostOp (.write addr v) s
    (addr.toNat ≤ 0x7FFF → (s.phase = .notReady ∨ s.phase = .ready) →
      r.response = .done ∧ r.state.memRead addr = v ∧
      (∀ other, other ≠ addr → r.state.memRead other = s.memRead other) ∧
      r.state = { s with mem := r.state.mem }) ∧
    (addr.toNat ≤ 0x7FFF → ∀ cause, s.phase = .halted cause →
      r.response = .refused .halted ∧ r.state = s) ∧
    (0x8000 ≤ addr.toNat → r.response = .failed (.romWriteAttempt addr) ∧ r.state = s)

/-- R38: no 16-bit address raises `AddressOutOfBounds`, though it is checked for any wider one. -/
def Obligations.AddressOutOfBoundsIsCheckedAndUnreachable : Prop :=
  ∀ (m : Memory) (v : Byte),
    (∀ addr : Word, (∃ b, Memory.read m addr.toNat = .ok b) ∧
      ∀ n, Memory.write m addr.toNat v ≠ .error (.addressOutOfBounds n)) ∧
    ∀ n : Nat, n > 0xFFFF →
      Memory.read m n = .error (.addressOutOfBounds n) ∧
      Memory.write m n v = .error (.addressOutOfBounds n)

/-- R40: `load_image` rejects an image that would overflow the space and changes nothing, or places every byte, past the
read-only check, and changes no other cell. That it bypasses the check and rejects whole is the spec's decision D8
(log 10). In `Halted` memory keeps its values (R100); that an image that fits is refused there, and one that does not is
still rejected as an overflow, is the model's choice (log 11). -/
def Obligations.LoadImagePlacesTheWholeImageOrNothing : Prop :=
  ∀ (s : State) (bytes : List Byte), Memory.wf s.mem = true →
    let base := Config.imageBase.toNat
    let r := hostOp (.loadImage bytes) s
    (base + bytes.length > 65536 → r.response = .imageOverflow ∧ r.state = s) ∧
    (base + bytes.length ≤ 65536 → ∀ cause, s.phase = .halted cause →
      r.response = .refused .halted ∧ r.state = s) ∧
    (base + bytes.length ≤ 65536 → (s.phase = .notReady ∨ s.phase = .ready) →
      r.response = .accepted ∧ r.state = { s with mem := r.state.mem } ∧
      (∀ (k : Nat) (h : k < bytes.length),
        r.state.memRead (BitVec.ofNat 16 (base + k)) = bytes[k]) ∧
      ∀ addr : Word, (addr.toNat < base ∨ base + bytes.length ≤ addr.toNat) →
        r.state.memRead addr = s.memRead addr)

/-- The model's own form (log 9): two memories in canonical form that read the same everywhere are the same data. -/
def Obligations.CanonicalMemoriesThatReadAlikeAreEqual : Prop :=
  ∀ m₁ m₂ : Memory, Memory.wf m₁ = true → Memory.wf m₂ = true →
    (∀ n, n < 65536 → Memory.lookup m₁ n = Memory.lookup m₂ n) → m₁ = m₂

/-- R48: a change of memory made before a step is seen by that step's fetches. -/
def Obligations.CodeWrittenByTheHostIsFetched : Prop :=
  ∀ (s : State) (v : Byte), s.Launch → s.pc.toNat + 1 < 0x8000 →
    let s₁ := (hostOp (.write s.pc 0xA9) s).state
    let s₂ := (hostOp (.write (s.pc + 1) v) s₁).state
    (hostOp .step s₂).response = .cycles 2 ∧ (hostOp .step s₂).state.a = v

/-! ## Addressing -/

/-- R60: a zero-page pointer takes its low byte at `p` and its high byte at `(p + 1) & 0xFF`, little-endian. -/
def Obligations.ZeroPagePointerTakesBothBytesFromPageZero : Prop :=
  ∀ (s : State) (p : Byte),
    (s.readWordZP p).toNat =
      (s.memRead (BitVec.ofNat 16 ((p.toNat + 1) % 256))).toNat * 256 +
        (s.memRead (BitVec.ofNat 16 p.toNat)).toNat

/-- R61: the zero-page arithmetic of Zero Page,X, Indirect,X and Indirect,Y is modulo 256, so it never leaves page 0; its
carry sets no flag and costs no cycle (Indirect,Y is charged only for the cross from the pointer's content to the target).
The addresses are those a step reads, after the opcode byte and the operand byte. -/
def Obligations.ZeroPageArithmeticNeverLeavesPageZero : Prop :=
  (∀ (d8 : Byte) (s : State),
    (resolveZeroPageX d8 s).ea.toNat = (d8.toNat + s.x.toNat) % 256 ∧
    (resolveZeroPageX d8 s).crossed = false ∧ (resolveZeroPageX d8 s).st.p = s.p ∧
    (resolveIndirectX d8 s).crossed = false ∧ (resolveIndirectX d8 s).st.p = s.p ∧
    (resolveIndirectY d8 s).st.p = s.p ∧
    (resolveIndirectY d8 s).crossed =
      crossed (s.readWordZP d8) (indexed (s.readWordZP d8) s.y)) ∧
  ∀ (d8 : Byte) (s : State), s.phase = .ready →
    (s.InstrAt (encode (.ldaZpX d8)) →
      (Reference.stepReads s).drop 2 = [BitVec.ofNat 16 ((d8.toNat + s.x.toNat) % 256)] ∧
      (hostOp .step s).response = .cycles 4) ∧
    (s.InstrAt (encode (.ldaIndX d8)) →
      ((Reference.stepReads s).drop 2).take 2 =
        [BitVec.ofNat 16 ((d8.toNat + s.x.toNat) % 256),
          BitVec.ofNat 16 (((d8.toNat + s.x.toNat) % 256 + 1) % 256)] ∧
      (hostOp .step s).response = .cycles 6) ∧
    (s.InstrAt (encode (.ldaIndY d8)) →
      ((Reference.stepReads s).drop 2).take 2 =
        [BitVec.ofNat 16 d8.toNat, BitVec.ofNat 16 ((d8.toNat + 1) % 256)] ∧
      (hostOp .step s).response =
        .cycles (if crossed (s.readWordZP d8) (indexed (s.readWordZP d8) s.y) then 6 else 5))

/-- R59, R64 to R71: the address each resolver computes, the cross it reports, and that it writes nothing but `pc`
(Absolute,X: the spec's decision D2, log 2; the 16-bit wrap: its decision D4, log 8). -/
def Obligations.ResolversComputeTheirAddressAndMoveOnlyPc : Prop :=
  ∀ (d8 lo hi : Byte) (s : State),
    let one : State := { s with pc := s.pc + 1 }
    let two : State := { s with pc := s.pc + 2 }
    let base := hi.toNat * 256 + lo.toNat
    let pointer (p : Nat) : Nat :=
      (s.memRead (BitVec.ofNat 16 ((p + 1) % 256))).toNat * 256 +
        (s.memRead (BitVec.ofNat 16 (p % 256))).toNat
    let returns (r : Resolved) (ea : Nat) (cross : Bool) (t : State) : Prop :=
      r.ea.toNat = ea ∧ r.crossed = cross ∧ r.st = t
    resolveImmediate d8 s = (d8, one) ∧
    returns (resolveZeroPage d8 s) d8.toNat false one ∧
    returns (resolveZeroPageX d8 s) ((d8.toNat + s.x.toNat) % 256) false one ∧
    returns (resolveAbsolute lo hi s) base false two ∧
    returns (resolveAbsoluteX lo hi s) ((base + s.x.toNat) % 65536)
      (decide (lo.toNat + s.x.toNat > 255)) two ∧
    returns (resolveAbsoluteY lo hi s) ((base + s.y.toNat) % 65536)
      (decide (lo.toNat + s.y.toNat > 255)) two ∧
    returns (resolveIndirectX d8 s) (pointer (d8.toNat + s.x.toNat)) false one ∧
    returns (resolveIndirectY d8 s) ((pointer d8.toNat + s.y.toNat) % 65536)
      (decide (pointer d8.toNat % 256 + s.y.toNat > 255)) one

/-- R62 and R63: the index is added unsigned, modulo 65536 (the wrap: the spec's decision D4, log 8), and a page is crossed exactly when the low-byte addition
carries, which is when the high bytes of base and target differ. -/
def Obligations.PageCrossIsTheCarryOfTheLowByte : Prop :=
  ∀ (base : Word) (index : Byte),
    (indexed base index).toNat = (base.toNat + index.toNat) % 65536 ∧
    crossed base (indexed base index) = decide (base.toNat % 256 + index.toNat > 255) ∧
    crossed base (indexed base index) =
      decide (base.toNat / 256 ≠ ((base.toNat + index.toNat) % 65536) / 256)

/-- R73, R74, R20: what the fetch primitives return and where they leave `pc` (the wrap: the spec's decision D3, log 7). -/
def Obligations.FetchReadsAtPcAndAdvancesIt : Prop :=
  ∀ s : State,
    let next := BitVec.ofNat 16 (s.pc.toNat + 1)
    (fetchByte s).1 = s.memRead s.pc ∧
    (fetchByte s).2 = { s with pc := next } ∧
    (fetchWord s).1.toNat = (s.memRead next).toNat * 256 + (s.memRead s.pc).toNat ∧
    (fetchWord s).2 = { s with pc := BitVec.ofNat 16 (s.pc.toNat + 2) }

/-! ## Registers -/

/-- R18: the four 8-bit registers and `pc` are five independent cells. -/
def Obligations.RegistersAreIndependentCells : Prop :=
  ∀ (s : State) (r q : Reg) (v : Byte) (w : Word),
    (s.setReg r v).reg q = (if q = r then v else s.reg q) ∧
    (s.setReg r v).pc = s.pc ∧ (s.setPc w).pc = w ∧ (s.setPc w).reg q = s.reg q ∧
    (s.setReg r v).p = s.p ∧ (s.setReg r v).mem = s.mem

/-- R17: `x[SP]` denotes an address of 0x0100 to 0x01FF; a step neither reads nor writes it. -/
def Obligations.StackPointerIsInert : Prop :=
  ∀ (s : State) (v : Byte),
    s.stackAddress.toNat = 0x0100 + s.sp.toNat ∧
    (s.phase = .ready → ∃ t, step s = .next t ∧ t.sp = s.sp ∧
      step (s.setReg .SP v) = .next (t.setReg .SP v))

/-! ## Reset, power-on and lifecycle -/

/-- R110, R111 and R112: what `reset` leaves, from `NotReady` and from `Ready`; it reads both bytes of the vector and never
touches memory. `cycles` and the phase are the spec's own state (92 D5, D6, D15; logs 4 and 12). -/
def Obligations.ResetLeavesTheStatedValues : Prop :=
  ∀ s : State, (s.phase = .notReady ∨ s.phase = .ready) →
    let t := (hostOp .reset s).state
    (hostOp .reset s).response = .done ∧
    t.pc.toNat = (s.memRead 0xFFFD).toNat * 256 + (s.memRead 0xFFFC).toNat ∧
    t.sp = 0xFF ∧ t.p = 0x00 ∧ t.a = 0x00 ∧ t.x = 0x00 ∧ t.y = 0x00 ∧
    t.cycles = 0 ∧ t.phase = .ready ∧ t.mem = s.mem

/-- R31 and R109: after power-on every byte of memory and all of `P` are 0, the phase is `NotReady` and no cycles are
counted; the context shows no value for the five registers, which is the model's form of the spec's decision D7 (log 6). -/
def Obligations.PowerOnZeroesMemoryAndStatus : Prop :=
  ∀ (session : Nat) (s : State),
    let t := (hostOp (.powerOn session) s).state
    (∀ addr, t.memRead addr = 0x00) ∧ t.p = 0x00 ∧ t.phase = .notReady ∧ t.cycles = 0 ∧
    t.context = { sp := none, pc := none, a := none, x := none, y := none, p := 0x00 }

/-- R32 over the zeroed memory of R31 (log 15): `State.reset` is the machine after power-on and `reset()`, in any
session. -/
def Obligations.ResetStateIsResetAfterPowerOn : Prop :=
  ∀ session : Nat, (hostOp .reset (State.powerOn session)).state = State.reset

/-- R28, the spec's own latch (92 D5, D7; logs 4 and 5): its transitions, and no others. That a host write, failed or not,
leaves it alone is the spec's decision D9 (log 20); in `Halted` a write or an image load leaves the whole state alone
(R100, log 11). -/
def Obligations.PhaseMovesOnlyAsTheRuleSays : Prop :=
  ∀ (op : HostOp) (s : State),
    let t := (hostOp op s).state
    match op with
    | .powerOn _ => t.phase = .notReady
    | .reset => (∃ cause, s.phase = .halted cause ∧ t.phase = .halted cause) ∨
        ((s.phase = .notReady ∨ s.phase = .ready) ∧ t.phase = .ready)
    | .step => t.phase = s.phase ∨ (s.phase = .ready ∧ ∃ cause,
        t.phase = .halted cause ∧ (hostOp op s).response = .fatal cause)
    | _ => t.phase = s.phase

/-- R100: no `step` and no `reset` from `Halted`; whatever the host does, registers, flags, memory and `cycles` keep the
values they had at the stop, and are still readable; only a power-on gives a usable engine. The spec's decision D5
(log 4); how writes, image loads and test-bench sets are answered there is the model's choice (logs 11 and 17), as is
the `P` in the summary (log 22). -/
def Obligations.HaltedIsTerminal : Prop :=
  ∀ (s : State) (cause : Fault), s.phase = .halted cause →
    hostOp .step s = { response := .refused .halted, state := s, reports := [] } ∧
    hostOp .reset s = { response := .refused .halted, state := s, reports := [] } ∧
    (∀ addr, (hostOp (.read addr) s).response = .byte (s.memRead addr)) ∧
    (hostOp .contextQuery s).response = .context
      { sp := some s.sp, pc := some s.pc, a := some s.a, x := some s.x, y := some s.y, p := s.p } ∧
    (∀ op, (∀ session, op ≠ .powerOn session) → (hostOp op s).state = s) ∧
    ∀ session, (hostOp .reset (hostOp (.powerOn session) s).state).state.phase = .ready

/-- R29, the spec's own counter (92 D6, D10; log 12): `cycles` is the sum of what completed steps return since the last
reset; nothing else moves it. -/
def Obligations.CyclesSumWhatStepsReturn : Prop :=
  ∀ (op : HostOp) (s : State),
    let r := hostOp op s
    match op with
    | .powerOn _ => r.state.cycles = 0
    | .reset => ((s.phase = .notReady ∨ s.phase = .ready) → r.state.cycles = 0) ∧
        (∀ cause, s.phase = .halted cause → r.state.cycles = s.cycles)
    | .step => (∀ c, r.response = .cycles c → r.state.cycles = s.cycles + c) ∧
        (∀ cause, r.response = .fatal cause → r.state.cycles = s.cycles)
    | _ => r.state.cycles = s.cycles

/-- R98: which failures each operation can give. -/
def Obligations.OnlyTheseFailuresArise : Prop :=
  ∀ (op : HostOp) (s : State),
    (∀ cause, (hostOp op s).response = .fatal cause →
      op = .step ∧ ∃ addr opcode, cause = .unknownOpcode addr opcode) ∧
    (∀ cause, (hostOp op s).response = .failed cause →
      ∃ addr v, op = .write addr v ∧ cause = .romWriteAttempt addr) ∧
    ((hostOp op s).response = .imageOverflow → ∃ bytes, op = .loadImage bytes) ∧
    ∀ cause, step s ≠ .fault cause

/-- R99 (the `Halted` state: the spec's decision D5, log 3): a fatal stop saves nothing and changes nothing but the phase. -/
def Obligations.FatalStopSavesNothing : Prop :=
  ∀ (cause : Fault) (s : State), fatalStop cause s = { s with phase := .halted cause }

/-- R108: the context summary holds the five registers (and `P`, as R108 advises, log 22), and producing it changes no
state. -/
def Obligations.ContextQueryShowsTheRegisters : Prop :=
  ∀ s : State, (hostOp .contextQuery s).state = s ∧
    (s.phase ≠ .notReady → (hostOp .contextQuery s).response = .context
      { sp := some s.sp, pc := some s.pc, a := some s.a, x := some s.x, y := some s.y, p := s.p })

/-- R8(c): between operations a test bench may set any register or flag of a `Ready` engine; that the set of any other is
refused is the model's choice (log 17). -/
def Obligations.TestBenchSetsOnlyAReadyEngine : Prop :=
  ∀ (s : State) (r : Reg) (v : Byte) (w : Word) (f : Flag) (b : Bool),
    (s.phase = .ready →
      (hostOp (.setReg r v) s).state.reg r = v ∧ (hostOp (.setPc w) s).state.pc = w ∧
      (hostOp (.setFlag f b) s).state.flag f = b) ∧
    (s.phase ≠ .ready →
      ∀ op ∈ [HostOp.setReg r v, .setPc w, .setFlag f b],
        ∃ q, hostOp op s = { response := .refused q, state := s, reports := [] })

/-! ## Invariant and runs -/

/-- The invariant holds of the machine after reset. -/
def Obligations.ResetStateMeetsTheInvariant : Prop := State.reset.Launch

/-- Every step keeps the invariant: memory canonical (log 9), bit 5 of `P` 0 (R25), and a stop explained by an unknown
opcode one byte before `pc` (R97, R98). -/
def Obligations.StepKeepsTheInvariant : Prop :=
  ∀ s t : State, s.Inv → step s = .next t → t.Inv

/-- Every host operation keeps the invariant, in every phase. -/
def Obligations.HostOperationsKeepTheInvariant : Prop :=
  ∀ (op : HostOp) (s : State), s.Inv → (hostOp op s).state.Inv

/-- R39 and R15 to R17 over runs: however many steps run, memory, `X`, `Y`, `SP`, the inert flags and bit 5 are as at the
start. -/
def Obligations.RunsNeverChangeMemoryOrIndexRegisters : Prop :=
  ∀ (n : Nat) (s t : State), core.run n s = .next t →
    t.mem = s.mem ∧ (∀ addr, t.memRead addr = s.memRead addr) ∧
    t.x = s.x ∧ t.y = s.y ∧ t.sp = s.sp ∧
    (∀ f, f ≠ .zero → f ≠ .negative → t.flag f = s.flag f) ∧
    t.p.getLsbD 5 = s.p.getLsbD 5

/-- R77, R81 (a run's end: the spec's decision D20): a run that ends after `n` steps ends `Ready` and has counted 2 to 6 cycles a step; one that ends early ends
`Halted`, never as a success. -/
def Obligations.RunsCountTwoToSixCyclesAStep : Prop :=
  ∀ (n : Nat) (s : State), s.phase = .ready →
    (∃ t, runFrom n s = .afterSteps t ∧ t.phase = .ready ∧
      s.cycles + 2 * n ≤ t.cycles ∧ t.cycles ≤ s.cycles + 6 * n) ∨
    (∃ addr opcode t, runFrom n s = .atFatal (.unknownOpcode addr opcode) t ∧
      t.phase = .halted (.unknownOpcode addr opcode) ∧ decodeOpcode opcode = none ∧
      s.memRead addr = opcode ∧ t.pc = addr + 1)

/-- R80, R81: a program of load instructions standing at `pc` runs straight through, one step an instruction, and `pc` ends
at the byte after it. -/
def Obligations.StraightLineProgramsRunSafely : Prop :=
  ∀ (program : List Instr) (s : State), s.phase = .ready → s.InstrAt (program.flatMap encode) →
    SafeRun program.length s ∧
    ∃ t, runFrom program.length s = .afterSteps t ∧
      t.pc = s.pc + BitVec.ofNat 16 (program.map Instr.length).sum

/-- The model's loading of one instruction (log 15): placed where the engine fetches, it is what the next step runs, and
every other byte of memory stays as it was. -/
def Obligations.PlacedTableWordIsTheNextInstruction : Prop :=
  ∀ (s : State) (nbits w : Nat) (i : Instr), Memory.wf s.mem = true →
    decodeTableWord nbits w = some i →
    let t := s.withFetchWord nbits w
    step t = exec i { t with pc := t.pc + 1 } ∧ t.pc = s.pc ∧
    ∀ addr, addr ≠ s.pc → addr ≠ s.pc + 1 → addr ≠ s.pc + 2 → t.memRead addr = s.memRead addr

/-- R81 has runs from a `Ready` launch state only; that from any other phase the answer is a refusal, for a run of no steps
too, is the model's choice (log 24). -/
def Obligations.NoRunStartsOutsideReady : Prop :=
  ∀ (n : Nat) (s : State), s.phase ≠ .ready →
    (∃ r, runFrom n s = .refused r) ∧ ¬SafeRun n s
end

