-- ==== Sys2Proof/Laws/State.lean ====
section
/-! SUPPORT. The field laws of State: for every update, what each field is after it, and what a memory read is after it. -/

namespace Sys2Proof.Machine

variable (s : State)

@[simp] theorem setPc_a (w : Word) : (s.setPc w).a = s.a := rfl
@[simp] theorem setPc_x (w : Word) : (s.setPc w).x = s.x := rfl
@[simp] theorem setPc_y (w : Word) : (s.setPc w).y = s.y := rfl
@[simp] theorem setPc_sp (w : Word) : (s.setPc w).sp = s.sp := rfl
@[simp] theorem setPc_pc (w : Word) : (s.setPc w).pc = w := rfl
@[simp] theorem setPc_p (w : Word) : (s.setPc w).p = s.p := rfl
@[simp] theorem setPc_mem (w : Word) : (s.setPc w).mem = s.mem := rfl
@[simp] theorem setPc_phase (w : Word) : (s.setPc w).phase = s.phase := rfl
@[simp] theorem setPc_cycles (w : Word) : (s.setPc w).cycles = s.cycles := rfl
@[simp] theorem setPc_memRead (w : Word) (addr : Word) : (s.setPc w).memRead addr = s.memRead addr := rfl

@[simp] theorem setP_a (v : Byte) : (s.setP v).a = s.a := rfl
@[simp] theorem setP_x (v : Byte) : (s.setP v).x = s.x := rfl
@[simp] theorem setP_y (v : Byte) : (s.setP v).y = s.y := rfl
@[simp] theorem setP_sp (v : Byte) : (s.setP v).sp = s.sp := rfl
@[simp] theorem setP_pc (v : Byte) : (s.setP v).pc = s.pc := rfl
@[simp] theorem setP_p (v : Byte) : (s.setP v).p = v := rfl
@[simp] theorem setP_mem (v : Byte) : (s.setP v).mem = s.mem := rfl
@[simp] theorem setP_phase (v : Byte) : (s.setP v).phase = s.phase := rfl
@[simp] theorem setP_cycles (v : Byte) : (s.setP v).cycles = s.cycles := rfl
@[simp] theorem setP_memRead (v : Byte) (addr : Word) : (s.setP v).memRead addr = s.memRead addr := rfl

@[simp] theorem setPhase_a (f : Phase) : (s.setPhase f).a = s.a := rfl
@[simp] theorem setPhase_x (f : Phase) : (s.setPhase f).x = s.x := rfl
@[simp] theorem setPhase_y (f : Phase) : (s.setPhase f).y = s.y := rfl
@[simp] theorem setPhase_sp (f : Phase) : (s.setPhase f).sp = s.sp := rfl
@[simp] theorem setPhase_pc (f : Phase) : (s.setPhase f).pc = s.pc := rfl
@[simp] theorem setPhase_p (f : Phase) : (s.setPhase f).p = s.p := rfl
@[simp] theorem setPhase_mem (f : Phase) : (s.setPhase f).mem = s.mem := rfl
@[simp] theorem setPhase_phase (f : Phase) : (s.setPhase f).phase = f := rfl
@[simp] theorem setPhase_cycles (f : Phase) : (s.setPhase f).cycles = s.cycles := rfl
@[simp] theorem setPhase_memRead (f : Phase) (addr : Word) : (s.setPhase f).memRead addr = s.memRead addr := rfl

@[simp] theorem setMem_a (m : Memory) : (s.setMem m).a = s.a := rfl
@[simp] theorem setMem_x (m : Memory) : (s.setMem m).x = s.x := rfl
@[simp] theorem setMem_y (m : Memory) : (s.setMem m).y = s.y := rfl
@[simp] theorem setMem_sp (m : Memory) : (s.setMem m).sp = s.sp := rfl
@[simp] theorem setMem_pc (m : Memory) : (s.setMem m).pc = s.pc := rfl
@[simp] theorem setMem_p (m : Memory) : (s.setMem m).p = s.p := rfl
@[simp] theorem setMem_mem (m : Memory) : (s.setMem m).mem = m := rfl
@[simp] theorem setMem_phase (m : Memory) : (s.setMem m).phase = s.phase := rfl
@[simp] theorem setMem_cycles (m : Memory) : (s.setMem m).cycles = s.cycles := rfl
@[simp] theorem setMem_memRead (m : Memory) (addr : Word) :
    (s.setMem m).memRead addr = Memory.lookup m addr.toNat := rfl

@[simp] theorem addCycles_a (c : Nat) : (s.addCycles c).a = s.a := rfl
@[simp] theorem addCycles_x (c : Nat) : (s.addCycles c).x = s.x := rfl
@[simp] theorem addCycles_y (c : Nat) : (s.addCycles c).y = s.y := rfl
@[simp] theorem addCycles_sp (c : Nat) : (s.addCycles c).sp = s.sp := rfl
@[simp] theorem addCycles_pc (c : Nat) : (s.addCycles c).pc = s.pc := rfl
@[simp] theorem addCycles_p (c : Nat) : (s.addCycles c).p = s.p := rfl
@[simp] theorem addCycles_mem (c : Nat) : (s.addCycles c).mem = s.mem := rfl
@[simp] theorem addCycles_phase (c : Nat) : (s.addCycles c).phase = s.phase := rfl
@[simp] theorem addCycles_cycles (c : Nat) : (s.addCycles c).cycles = s.cycles + c := rfl
@[simp] theorem addCycles_memRead (c : Nat) (addr : Word) : (s.addCycles c).memRead addr = s.memRead addr := rfl

@[simp] theorem setReg_A_a (v : Byte) : (s.setReg .A v).a = v := rfl
@[simp] theorem setReg_A_x (v : Byte) : (s.setReg .A v).x = s.x := rfl
@[simp] theorem setReg_A_y (v : Byte) : (s.setReg .A v).y = s.y := rfl
@[simp] theorem setReg_A_sp (v : Byte) : (s.setReg .A v).sp = s.sp := rfl
@[simp] theorem setReg_X_a (v : Byte) : (s.setReg .X v).a = s.a := rfl
@[simp] theorem setReg_X_x (v : Byte) : (s.setReg .X v).x = v := rfl
@[simp] theorem setReg_X_y (v : Byte) : (s.setReg .X v).y = s.y := rfl
@[simp] theorem setReg_X_sp (v : Byte) : (s.setReg .X v).sp = s.sp := rfl
@[simp] theorem setReg_Y_a (v : Byte) : (s.setReg .Y v).a = s.a := rfl
@[simp] theorem setReg_Y_x (v : Byte) : (s.setReg .Y v).x = s.x := rfl
@[simp] theorem setReg_Y_y (v : Byte) : (s.setReg .Y v).y = v := rfl
@[simp] theorem setReg_Y_sp (v : Byte) : (s.setReg .Y v).sp = s.sp := rfl
@[simp] theorem setReg_SP_a (v : Byte) : (s.setReg .SP v).a = s.a := rfl
@[simp] theorem setReg_SP_x (v : Byte) : (s.setReg .SP v).x = s.x := rfl
@[simp] theorem setReg_SP_y (v : Byte) : (s.setReg .SP v).y = s.y := rfl
@[simp] theorem setReg_SP_sp (v : Byte) : (s.setReg .SP v).sp = v := rfl

@[simp] theorem setReg_pc (r : Reg) (v : Byte) : (s.setReg r v).pc = s.pc := by cases r <;> rfl
@[simp] theorem setReg_p (r : Reg) (v : Byte) : (s.setReg r v).p = s.p := by cases r <;> rfl
@[simp] theorem setReg_mem (r : Reg) (v : Byte) : (s.setReg r v).mem = s.mem := by cases r <;> rfl
@[simp] theorem setReg_phase (r : Reg) (v : Byte) : (s.setReg r v).phase = s.phase := by cases r <;> rfl
@[simp] theorem setReg_cycles (r : Reg) (v : Byte) : (s.setReg r v).cycles = s.cycles := by cases r <;> rfl
@[simp] theorem setReg_memRead (r : Reg) (v : Byte) (addr : Word) :
    (s.setReg r v).memRead addr = s.memRead addr := by cases r <;> rfl

@[simp] theorem reg_A : s.reg .A = s.a := rfl
@[simp] theorem reg_X : s.reg .X = s.x := rfl
@[simp] theorem reg_Y : s.reg .Y = s.y := rfl
@[simp] theorem reg_SP : s.reg .SP = s.sp := rfl

theorem reg_setReg (r q : Reg) (v : Byte) :
    (s.setReg r v).reg q = (if q = r then v else s.reg q) := by cases r <;> cases q <;> rfl

@[simp] theorem passByte_a : s.passByte.a = s.a := rfl
@[simp] theorem passByte_x : s.passByte.x = s.x := rfl
@[simp] theorem passByte_y : s.passByte.y = s.y := rfl
@[simp] theorem passByte_sp : s.passByte.sp = s.sp := rfl
@[simp] theorem passByte_pc : s.passByte.pc = s.pc + 1 := rfl
@[simp] theorem passByte_p : s.passByte.p = s.p := rfl
@[simp] theorem passByte_mem : s.passByte.mem = s.mem := rfl
@[simp] theorem passByte_phase : s.passByte.phase = s.phase := rfl
@[simp] theorem passByte_cycles : s.passByte.cycles = s.cycles := rfl
@[simp] theorem passByte_memRead (addr : Word) : s.passByte.memRead addr = s.memRead addr := rfl

@[simp] theorem passWord_a : s.passWord.a = s.a := rfl
@[simp] theorem passWord_x : s.passWord.x = s.x := rfl
@[simp] theorem passWord_y : s.passWord.y = s.y := rfl
@[simp] theorem passWord_sp : s.passWord.sp = s.sp := rfl
@[simp] theorem passWord_pc : s.passWord.pc = s.pc + 1 + 1 := rfl
@[simp] theorem passWord_p : s.passWord.p = s.p := rfl
@[simp] theorem passWord_mem : s.passWord.mem = s.mem := rfl
@[simp] theorem passWord_phase : s.passWord.phase = s.phase := rfl
@[simp] theorem passWord_cycles : s.passWord.cycles = s.cycles := rfl
@[simp] theorem passWord_memRead (addr : Word) : s.passWord.memRead addr = s.memRead addr := rfl

@[simp] theorem setFlag_state (f : Flag) (b : Bool) :
    s.setFlag f b = s.setP (setFlag s.p f b) := rfl

@[simp] theorem flag_eq (f : Flag) : s.flag f = getFlag s.p f := rfl

end Sys2Proof.Machine
end

