-- ==== Sys2Proof/Laws/Memory.lean ====
section
/-! SUPPORT. The laws of memory: a read after a write, the canonical form and every operation that keeps it (log 9). -/

namespace Sys2Proof.Machine.Memory

theorem lookup_below {m : Memory} : ∀ {low addr : Nat}, wfFrom low m = true → addr < low →
    lookup m addr = Config.memoryFill := by
  induction m with
  | nil => intros; rfl
  | cons cell cells ih =>
    intro low addr hwf hlt
    obtain ⟨k, v⟩ := cell
    simp only [wfFrom, Bool.and_eq_true, decide_eq_true_eq] at hwf
    have hne : addr ≠ k := by omega
    simp only [lookup, hne, if_false]
    exact ih hwf.2 (by omega)

theorem wfFrom_mono {m : Memory} {low low' : Nat} (hle : low' ≤ low) (hwf : wfFrom low m = true) :
    wfFrom low' m = true := by
  cases m with
  | nil => rfl
  | cons cell cells =>
    obtain ⟨k, v⟩ := cell
    simp only [wfFrom, Bool.and_eq_true, decide_eq_true_eq] at hwf ⊢
    exact ⟨⟨⟨by omega, hwf.1.1.2⟩, hwf.1.2⟩, hwf.2⟩

/-- A read after a write: the byte written, at its address, and the byte there before, anywhere else. -/
theorem lookup_put {m : Memory} : ∀ {low : Nat}, wfFrom low m = true → ∀ (addr other : Nat) (b : Byte),
    lookup (put m addr b) other = if other = addr then b else lookup m other := by
  induction m with
  | nil =>
    intro low _ addr other b
    by_cases hb : b = Config.memoryFill <;> by_cases ho : other = addr <;> simp [put, lookup, hb, ho]
  | cons cell cells ih =>
    intro low hwf addr other b
    obtain ⟨k, v⟩ := cell
    have hbelow : ∀ n, n < low → lookup ((k, v) :: cells) n = Config.memoryFill := fun n hn =>
      lookup_below hwf hn
    simp only [wfFrom, Bool.and_eq_true, decide_eq_true_eq] at hwf
    have htail : ∀ n, n < k + 1 → lookup cells n = Config.memoryFill := fun n hn =>
      lookup_below hwf.2 hn
    simp only [put]
    by_cases hlt : addr < k
    · simp only [hlt, if_true]
      by_cases hb : b = Config.memoryFill
      · simp only [hb, if_true]
        by_cases ho : other = addr
        · subst ho
          have : other ≠ k := by omega
          simp only [lookup, this, if_true, if_false]
          exact htail _ (by omega)
        · simp [ho]
      · simp only [hb, if_false]
        by_cases ho : other = addr <;> simp [lookup, ho]
    · by_cases heq : addr = k
      · subst heq
        simp only [Nat.lt_irrefl, if_true, if_false]
        by_cases hb : b = Config.memoryFill
        · simp only [hb, if_true]
          by_cases ho : other = addr
          · subst ho
            simpa using htail _ (by omega)
          · simp [lookup, ho]
        · by_cases ho : other = addr <;> simp [lookup, ho, hb]
      · simp only [hlt, heq, if_false, lookup]
        rw [ih hwf.2]
        by_cases hk : other = k
        · simp [hk, Ne.symm heq]
        · simp [hk]

theorem wfFrom_put {m : Memory} : ∀ {low : Nat}, wfFrom low m = true →
    ∀ {addr : Nat} (b : Byte), low ≤ addr → addr < Config.memSize → wfFrom low (put m addr b) = true := by
  induction m with
  | nil =>
    intro low _ addr b hlow hmax
    by_cases hb : b = Config.memoryFill <;> simp [put, wfFrom, hb, hlow, hmax]
  | cons cell cells ih =>
    intro low hwf addr b hlow hmax
    obtain ⟨k, v⟩ := cell
    have hwf' := hwf
    simp only [wfFrom, Bool.and_eq_true, decide_eq_true_eq] at hwf
    simp only [put]
    split
    · split
      · exact hwf'
      · rename_i hlt hb
        simp only [wfFrom, Bool.and_eq_true, decide_eq_true_eq]
        exact ⟨⟨⟨hlow, hmax⟩, hb⟩, ⟨⟨by omega, hwf.1.1.2⟩, hwf.1.2⟩, hwf.2⟩
    · split
      · split
        · exact wfFrom_mono (by omega) hwf.2
        · rename_i heq hb
          subst heq
          simp only [wfFrom, Bool.and_eq_true, decide_eq_true_eq]
          exact ⟨⟨⟨hlow, hmax⟩, hb⟩, hwf.2⟩
      · simp only [wfFrom, Bool.and_eq_true, decide_eq_true_eq]
        exact ⟨hwf.1, ih hwf.2 b (by omega) hmax⟩

/-- Storing a byte at an address of the space keeps the canonical form. -/
theorem wf_put {m : Memory} (hwf : wf m = true) {addr : Nat} (b : Byte) (h : addr < Config.memSize) :
    wf (put m addr b) = true :=
  wfFrom_put hwf b (Nat.zero_le _) h

/-- A checked write that is accepted stores below the read-only region, and keeps the canonical form. -/
theorem write_ok {m m' : Memory} {addr : Nat} {b : Byte} (h : write m addr b = .ok m') :
    addr < Config.romBase.toNat ∧ m' = put m addr b ∧ (wf m = true → wf m' = true) := by
  unfold write at h
  split at h
  · rename_i hmax
    split at h
    · cases h
    · rename_i hrom
      cases h
      exact ⟨by omega, rfl, fun hwf => wf_put hwf b hmax⟩
  · cases h

/-- Every 16-bit address lies in the space (R33). -/
theorem toNat_lt_memSize (addr : Word) : addr.toNat < Config.memSize := addr.isLt

/-- A checked read at a 16-bit address (R35, R38). -/
theorem read_word (m : Memory) (addr : Word) : read m addr.toNat = .ok (lookup m addr.toNat) :=
  if_pos (toNat_lt_memSize addr)

/-- A checked write at a 16-bit address (R36, R38). -/
theorem write_word (m : Memory) (addr : Word) (b : Byte) : write m addr.toNat b =
    if 0x8000 ≤ addr.toNat then .error (.romWriteAttempt addr) else .ok (put m addr.toNat b) := by
  simp only [write, toNat_lt_memSize, if_true, BitVec.ofNat_toNat, BitVec.setWidth_eq]
  rfl

/-- Placing an image that fits keeps the canonical form. -/
theorem wf_place (bytes : List Byte) : ∀ {m : Memory} {addr : Nat}, wf m = true →
    addr + bytes.length ≤ Config.memSize → wf (place m addr bytes) = true := by
  induction bytes with
  | nil => intro m addr hwf _; exact hwf
  | cons b bytes ih =>
    intro m addr hwf hfit
    simp only [List.length_cons] at hfit
    exact ih (wf_put hwf b (by omega)) (by omega)

/-- What a placed image reads as: its own bytes where it stands, and what was there before, anywhere else. -/
theorem lookup_place (bytes : List Byte) : ∀ {m : Memory} {base : Nat}, wf m = true →
    base + bytes.length ≤ Config.memSize → ∀ n, lookup (place m base bytes) n =
      if h : base ≤ n ∧ n < base + bytes.length then bytes[n - base]'(by omega) else lookup m n := by
  induction bytes with
  | nil =>
    intro m base _ _ n
    rw [dif_neg (by simp)]
    rfl
  | cons b bytes ih =>
    intro m base hwf hfit n
    simp only [List.length_cons] at hfit
    simp only [place]
    rw [ih (wf_put hwf b (by omega)) (by omega)]
    by_cases h : base + 1 ≤ n ∧ n < base + 1 + bytes.length
    · rw [dif_pos h, dif_pos ⟨by omega, by simp only [List.length_cons]; omega⟩]
      have e : n - base = (n - (base + 1)) + 1 := by omega
      simp [e]
    · rw [dif_neg h, lookup_put hwf]
      by_cases hn : n = base
      · subst hn
        simp
      · rw [if_neg hn, dif_neg (by simp only [List.length_cons]; omega)]

theorem loadImage_some {m m' : Memory} {base : Nat} {bytes : List Byte}
    (h : loadImage m base bytes = some m') :
    base + bytes.length ≤ Config.memSize ∧ m' = place m base bytes ∧ (wf m = true → wf m' = true) := by
  unfold loadImage at h
  split at h
  · rename_i hfit
    cases h
    exact ⟨hfit, rfl, fun hwf => wf_place bytes hwf hfit⟩
  · cases h

end Sys2Proof.Machine.Memory

namespace Sys2Proof.Machine

/-- Putting a byte where a 16-bit address says, and reading one back. -/
theorem memRead_put {s : State} (hwf : Memory.wf s.mem = true) (addr other : Word) (b : Byte) :
    (s.setMem (Memory.put s.mem addr.toNat b)).memRead other =
      if other = addr then b else s.memRead other := by
  rw [setMem_memRead, Memory.lookup_put hwf]
  by_cases h : other = addr
  · simp [h]
  · have : other.toNat ≠ addr.toNat := fun e => h (BitVec.eq_of_toNat_eq e)
    simp [h, this, State.memRead]

/-- Placing instruction bytes from any address keeps the canonical form. -/
theorem wf_placeFrom (bytes : List Byte) : ∀ {s : State} (addr : Word), Memory.wf s.mem = true →
    Memory.wf (s.placeFrom addr bytes).mem = true := by
  induction bytes with
  | nil => intro s addr hwf; exact hwf
  | cons b bytes ih =>
    intro s addr hwf
    exact ih _ (Memory.wf_put hwf b addr.isLt)

theorem reset_memory_wf : Memory.wf State.reset.mem = true := rfl

end Sys2Proof.Machine
end

