-- ==== Sys2Proof/Laws/Decode.lean ====
section
/-! SUPPORT. The laws of the decoder and encoder (30_encoding R50 to R56). -/

namespace Sys2Proof

/-- No opcode byte stands in two rows of the table (R50: "an opcode byte maps to exactly one handler"). -/
theorem opcodeTable_rows_distinct : opcodeTable.Pairwise fun r q => r.1 ≠ q.1 ∧ r.2 ≠ q.2 := by
  decide

/-- The decoder and the encoder read the same row (R54). -/
theorem decodeOpcode_eq_some_iff (op : Byte) (m : Mode) :
    decodeOpcode op = some m ↔ op = encodeOpcode m := by
  constructor
  · revert op
    cases m <;> decide
  · rintro rfl
    cases m <;> rfl

/-- An opcode byte has a handler or none (R55). -/
theorem decodeOpcode_eq_none_iff (op : Byte) :
    decodeOpcode op = none ↔ op ∉ [(0xA9 : Byte), 0xA5, 0xB5, 0xAD, 0xBD, 0xB9, 0xA1, 0xB1] := by
  revert op; decide

theorem takeD8_ok {build : Byte → Instr} {bytes rest : List Byte} {i : Instr}
    (h : takeD8 build bytes = .ok (i, rest)) : ∃ d8, bytes = d8 :: rest ∧ i = build d8 := by
  cases bytes with
  | nil => cases h
  | cons d8 bytes => cases h; exact ⟨d8, rfl, rfl⟩

theorem takeA16_ok {build : Byte → Byte → Instr} {bytes rest : List Byte} {i : Instr}
    (h : takeA16 build bytes = .ok (i, rest)) : ∃ lo hi, bytes = lo :: hi :: rest ∧ i = build lo hi := by
  match bytes, h with
  | lo :: hi :: _, rfl => exact ⟨lo, hi, rfl, rfl⟩

/-- What a mode's operand bytes decode to: an instruction of that mode with those operands. -/
theorem decodeOperands_ok {m : Mode} {bytes rest : List Byte} {i : Instr}
    (h : decodeOperands m bytes = .ok (i, rest)) : i.mode = m ∧ bytes = i.operands ++ rest := by
  cases m <;>
    first
      | (obtain ⟨d8, rfl, rfl⟩ := takeD8_ok h; exact ⟨rfl, rfl⟩)
      | (obtain ⟨lo, hi, rfl, rfl⟩ := takeA16_ok h; exact ⟨rfl, rfl⟩)

theorem decodeOperands_operands (i : Instr) (rest : List Byte) :
    decodeOperands i.mode (i.operands ++ rest) = .ok (i, rest) := by
  cases i <;> rfl

/-- Everything a decode can say: the opcode byte is the row of the instruction's mode, then its operand bytes. -/
theorem decode_ok {bytes rest : List Byte} {i : Instr} (h : decode bytes = .ok (i, rest)) :
    bytes = encodeOpcode i.mode :: (i.operands ++ rest) := by
  cases bytes with
  | nil => cases h
  | cons op bytes =>
    simp only [decode] at h
    split at h
    · cases h
    · rename_i m hm
      obtain ⟨rfl, rfl⟩ := decodeOperands_ok h
      rw [(decodeOpcode_eq_some_iff _ _).mp hm]

theorem decode_operands (i : Instr) (rest : List Byte) :
    decode (encodeOpcode i.mode :: (i.operands ++ rest)) = .ok (i, rest) := by
  simp only [decode, (decodeOpcode_eq_some_iff _ _).mpr rfl, decodeOperands_operands]

theorem decode_unknown {op : Byte} (h : decodeOpcode op = none) (rest : List Byte) :
    decode (op :: rest) = .error (.unknownOpcode op) := by
  simp only [decode, h]

@[simp] theorem fetchLength_encodeOpcode (m : Mode) : fetchLength (encodeOpcode m) = m.format.length := by
  cases m <;> rfl

theorem fetchLength_unknown {op : Byte} (h : decodeOpcode op = none) : fetchLength op = 1 := by
  simp only [fetchLength, h]

theorem operands_length (i : Instr) : i.operands.length + 1 = i.length := by
  cases i <;> rfl

end Sys2Proof
end

