-- ==== Sys2Proof/Laws/Flags.lean ====
section
/-! SUPPORT. The laws of the Status Register's primitives (10_state R22) and of the family's flag rule (R23). -/

namespace Sys2Proof.Machine

theorem getFlag_eq_getLsbD (p : Byte) (f : Flag) : getFlag p f = p.getLsbD f.bit := rfl

theorem flag_bit_injective {f g : Flag} (h : f.bit = g.bit) : f = g := by
  cases f <;> cases g <;> first | rfl | (exact absurd h (by decide))

/-- Every bit of `P` after `set(f, b)`: the target holds `b`, every other bit what it held. -/
theorem setFlag_getLsbD (p : Byte) (f : Flag) (b : Bool) (n : Nat) (hn : n < 8) :
    (setFlag p f b).getLsbD n = if n = f.bit then b else p.getLsbD n := by
  have hbit : f.bit < 8 := by cases f <;> decide
  by_cases h : n = f.bit
  · subst h
    cases b <;> simp [setFlag, hbit]
  · by_cases hlt : n < f.bit
    · cases b <;> simp [setFlag, hn, h, hlt]
    · have hpos : n - f.bit ≠ 0 := by omega
      cases b <;> simp [setFlag, hn, h, hlt, hpos]

@[simp] theorem getFlag_setFlag_same (p : Byte) (f : Flag) (b : Bool) :
    getFlag (setFlag p f b) f = b := by
  rw [getFlag_eq_getLsbD, setFlag_getLsbD _ _ _ _ (by cases f <;> decide), if_pos rfl]

theorem getFlag_setFlag_other (p : Byte) {f g : Flag} (b : Bool) (h : g ≠ f) :
    getFlag (setFlag p f b) g = getFlag p g := by
  rw [getFlag_eq_getLsbD, setFlag_getLsbD _ _ _ _ (by cases g <;> decide),
    if_neg (fun e => h (flag_bit_injective e)), getFlag_eq_getLsbD]

/-- No `set` can address the reserved bit (R22, R25). -/
@[simp] theorem setFlag_reservedBit (p : Byte) (f : Flag) (b : Bool) :
    (setFlag p f b).getLsbD 5 = p.getLsbD 5 := by
  rw [setFlag_getLsbD _ _ _ _ (by decide), if_neg (by cases f <;> decide)]

@[simp] theorem loadFlags_zero (p v : Byte) : getFlag (loadFlags p v) .zero = (v == 0) := by
  rw [loadFlags, getFlag_setFlag_other _ _ (by decide), getFlag_setFlag_same]

@[simp] theorem loadFlags_negative (p v : Byte) : getFlag (loadFlags p v) .negative = v.getLsbD 7 :=
  getFlag_setFlag_same _ _ _

theorem loadFlags_other (p v : Byte) {f : Flag} (hz : f ≠ .zero) (hn : f ≠ .negative) :
    getFlag (loadFlags p v) f = getFlag p f := by
  rw [loadFlags, getFlag_setFlag_other _ _ hn, getFlag_setFlag_other _ _ hz]

@[simp] theorem loadFlags_reservedBit (p v : Byte) : (loadFlags p v).getLsbD 5 = p.getLsbD 5 := by
  rw [loadFlags, setFlag_reservedBit, setFlag_reservedBit]

/-- Bit 7 of a byte is set exactly from 0x80 up (R82). -/
theorem getLsbD_seven (v : Byte) : v.getLsbD 7 = decide (128 ≤ v.toNat) := by
  revert v; decide

/-- The Zero test on a byte (R82). -/
theorem beq_zero_eq (v : Byte) : (v == 0) = decide (v.toNat = 0) := by
  revert v; decide

end Sys2Proof.Machine
end

