-- ==== Sys2Proof/Laws/Operands.lean ====
section
/-! SUPPORT. The address arithmetic as natural numbers (00_scope R10, 40_addressing_modes R60 to R63), and that a resolver
moves nothing but `pc` (R59). -/

namespace Sys2Proof.Machine

@[simp] theorem zext16_toNat (b : Byte) : (zext16 b).toNat = b.toNat := by
  simp [zext16]
  omega

@[simp] theorem word_toNat (hi lo : Byte) : (word hi lo).toNat = hi.toNat * 256 + lo.toNat := by
  have hlo := lo.isLt
  simp only [word, BitVec.toNat_append]
  rw [← Nat.shiftLeft_add_eq_or_of_lt hlo, Nat.shiftLeft_eq]

theorem zext16_eq_ofNat (b : Byte) : zext16 b = BitVec.ofNat 16 b.toNat :=
  BitVec.eq_of_toNat_eq (by have := b.isLt; simp; omega)

theorem word_eq_ofNat (hi lo : Byte) : word hi lo = BitVec.ofNat 16 (hi.toNat * 256 + lo.toNat) :=
  BitVec.eq_of_toNat_eq (by have := hi.isLt; have := lo.isLt; simp; omega)

/-- The page of an address is its high byte (R10). -/
theorem page_eq_iff (w w' : Word) : page w = page w' ↔ w.toNat / 256 = w'.toNat / 256 := by
  have key : ∀ w : Word, (page w).toNat = w.toNat / 256 * 256 := by
    intro w
    have e : page w = (w >>> 8) <<< 8 := by
      apply BitVec.eq_of_getLsbD_eq
      intro i hi
      have hmask : ∀ j, j < 16 → (0xFF00#16).getLsbD j = decide (8 ≤ j) := by decide
      simp only [page, BitVec.getLsbD_and, BitVec.getLsbD_shiftLeft, BitVec.getLsbD_ushiftRight]
      rw [show ((0xFF00 : Word).getLsbD i) = decide (8 ≤ i) from hmask i hi]
      by_cases h : 8 ≤ i
      · simp [h, hi, show 8 + (i - 8) = i by omega]
      · simp [h]
    have := w.isLt
    rw [e]
    simp [BitVec.toNat_shiftLeft, BitVec.toNat_ushiftRight, Nat.shiftLeft_eq, Nat.shiftRight_eq_div_pow]
    omega
  constructor
  · intro h
    have := congrArg BitVec.toNat h
    rw [key, key] at this
    omega
  · intro h
    apply BitVec.eq_of_toNat_eq
    rw [key, key, h]

@[simp] theorem indexed_toNat (base : Word) (index : Byte) :
    (indexed base index).toNat = (base.toNat + index.toNat) % 65536 := by
  simp [indexed, BitVec.toNat_add]

/-- A page is crossed when the high bytes differ (R63). -/
theorem crossed_eq (base target : Word) :
    crossed base target = decide (base.toNat / 256 ≠ target.toNat / 256) := by
  unfold crossed
  by_cases h : page base = page target
  · simp [h, (page_eq_iff _ _).mp h]
  · simp [h, mt (page_eq_iff _ _).mpr h]

theorem readWordZP_eq (s : State) (p : Byte) :
    s.readWordZP p = word (s.memRead (zext16 (p + 1))) (s.memRead (zext16 p)) := rfl

end Sys2Proof.Machine
end

