-- ==== Sys2Proof/Laws/Lda.lean ====
section
/-! SUPPORT. What a load-accumulator instruction does, said once: the equation of each meaning, and the one shape they all
have. -/

namespace Sys2Proof.Machine

/-- `loadA` and the end of a handler, field by field. -/
theorem loadA_eq (v : Byte) (s : State) : loadA v s = { s with a := v, p := loadFlags s.p v } := rfl

theorem exec_ldaImm (d8 : Byte) (s : State) :
    exec (.ldaImm d8) s = .next ((loadA d8 s.passByte).addCycles 2) := rfl

theorem exec_ldaZp (d8 : Byte) (s : State) :
    exec (.ldaZp d8) s = .next ((loadA (s.memRead (zext16 d8)) s.passByte).addCycles 3) := rfl

theorem exec_ldaZpX (d8 : Byte) (s : State) :
    exec (.ldaZpX d8) s = .next ((loadA (s.memRead (zext16 (d8 + s.x))) s.passByte).addCycles 4) := rfl

theorem exec_ldaAbs (lo hi : Byte) (s : State) :
    exec (.ldaAbs lo hi) s = .next ((loadA (s.memRead (word hi lo)) s.passWord).addCycles 4) := rfl

theorem exec_ldaAbsX (lo hi : Byte) (s : State) :
    exec (.ldaAbsX lo hi) s = .next ((loadA (s.memRead (indexed (word hi lo) s.x)) s.passWord).addCycles
      (4 + crossPenalty (crossed (word hi lo) (indexed (word hi lo) s.x)))) := rfl

theorem exec_ldaAbsY (lo hi : Byte) (s : State) :
    exec (.ldaAbsY lo hi) s = .next ((loadA (s.memRead (indexed (word hi lo) s.y)) s.passWord).addCycles
      (4 + crossPenalty (crossed (word hi lo) (indexed (word hi lo) s.y)))) := rfl

theorem exec_ldaIndX (d8 : Byte) (s : State) :
    exec (.ldaIndX d8) s =
      .next ((loadA (s.memRead (s.readWordZP (d8 + s.x))) s.passByte).addCycles 6) := rfl

theorem exec_ldaIndY (p : Byte) (s : State) :
    exec (.ldaIndY p) s = .next ((loadA (s.memRead (indexed (s.readWordZP p) s.y)) s.passByte).addCycles
      (5 + crossPenalty (crossed (s.readWordZP p) (indexed (s.readWordZP p) s.y)))) := rfl

theorem crossPenalty_le (b : Bool) : crossPenalty b ≤ 1 := by cases b <;> decide

theorem passByte_eq (s : State) : s.passByte = s.setPc (s.pc + BitVec.ofNat 16 1) := rfl

theorem passWord_eq (s : State) : s.passWord = s.setPc (s.pc + BitVec.ofNat 16 2) := by
  have h : s.pc + 1 + 1 = s.pc + BitVec.ofNat 16 2 := by rw [BitVec.add_assoc]; rfl
  show s.setPc (s.pc + 1 + 1) = _
  rw [h]

/-- The one shape of the family: a byte is loaded, `pc` passes the operand bytes, 2 to 6 cycles are counted, and nothing
else happens. -/
theorem exec_shape (i : Instr) (s : State) : ∃ v c, 2 ≤ c ∧ c ≤ 6 ∧
    exec i s = .next ((loadA v (s.setPc (s.pc + BitVec.ofNat 16 i.operands.length))).addCycles c) := by
  cases i with
  | ldaImm d8 => exact ⟨_, 2, by decide, by decide, exec_ldaImm d8 s⟩
  | ldaZp d8 => exact ⟨_, 3, by decide, by decide, exec_ldaZp d8 s⟩
  | ldaZpX d8 => exact ⟨_, 4, by decide, by decide, exec_ldaZpX d8 s⟩
  | ldaAbs lo hi => exact ⟨_, 4, by decide, by decide, by rw [exec_ldaAbs, passWord_eq]; rfl⟩
  | ldaAbsX lo hi =>
    have := crossPenalty_le (crossed (word hi lo) (indexed (word hi lo) s.x))
    exact ⟨_, 4 + crossPenalty (crossed (word hi lo) (indexed (word hi lo) s.x)), by omega, by omega, by rw [exec_ldaAbsX, passWord_eq]; rfl⟩
  | ldaAbsY lo hi =>
    have := crossPenalty_le (crossed (word hi lo) (indexed (word hi lo) s.y))
    exact ⟨_, 4 + crossPenalty (crossed (word hi lo) (indexed (word hi lo) s.y)), by omega, by omega, by rw [exec_ldaAbsY, passWord_eq]; rfl⟩
  | ldaIndX d8 => exact ⟨_, 6, by decide, by decide, exec_ldaIndX d8 s⟩
  | ldaIndY p =>
    have := crossPenalty_le (crossed (s.readWordZP p) (indexed (s.readWordZP p) s.y))
    exact ⟨_, 5 + crossPenalty (crossed (s.readWordZP p) (indexed (s.readWordZP p) s.y)), by omega,
      by omega, exec_ldaIndY p s⟩

/-- A state that a load of `v` makes is `LoadEffect`. -/
theorem loadEffect_of_load (s : State) (v : Byte) (n c : Nat) :
    LoadEffect s ((loadA v (s.setPc (s.pc + BitVec.ofNat 16 n))).addCycles c) v n c where
  accumulator := rfl
  zero := by
    show getFlag (loadFlags s.p v) .zero = _
    rw [loadFlags_zero, beq_zero_eq]
  negative := by
    show getFlag (loadFlags s.p v) .negative = _
    rw [loadFlags_negative, getLsbD_seven]
  otherFlags _ hz hn := loadFlags_other _ _ hz hn
  reservedBit := loadFlags_reservedBit _ _
  pc := rfl
  cycles := rfl
  indexX := rfl
  indexY := rfl
  stackPointer := rfl
  memory := rfl
  everyByte _ := rfl
  phase := rfl

end Sys2Proof.Machine
end

