-- ==== Sys2Proof/Laws/Step.lean ====
section
/-! SUPPORT. What a step can do, said once (41_fetch_dispatch R75 to R78, 60_exceptions R97). -/

namespace Sys2Proof.Machine

@[simp] theorem bytesFrom_length (s : State) (n : Nat) : ∀ addr : Word, (s.bytesFrom addr n).length = n := by
  induction n with
  | zero => intro _; rfl
  | succ n ih => intro addr; simp [State.bytesFrom, ih]

/-- Reading on: the first `n` bytes, then the next `m`. -/
theorem bytesFrom_append (s : State) (n m : Nat) : ∀ addr : Word,
    s.bytesFrom addr (n + m) = s.bytesFrom addr n ++ s.bytesFrom (addr + BitVec.ofNat 16 n) m := by
  induction n with
  | zero => intro addr; simp [State.bytesFrom]
  | succ n ih =>
    intro addr
    have h : addr + 1 + BitVec.ofNat 16 n = addr + BitVec.ofNat 16 (n + 1) := by
      rw [BitVec.add_assoc]
      congr 1
      apply BitVec.eq_of_toNat_eq
      simp [BitVec.toNat_add, Nat.add_comm]
    rw [Nat.add_right_comm]
    simp only [State.bytesFrom, ih, List.cons_append, h]

/-- Bytes read from a state do not depend on anything but memory. -/
theorem bytesFrom_congr {s t : State} (h : s.mem = t.mem) (n : Nat) :
    ∀ addr : Word, s.bytesFrom addr n = t.bytesFrom addr n := by
  induction n with
  | zero => intro _; rfl
  | succ n ih => intro addr; simp only [State.bytesFrom, State.memRead, h, ih]

theorem step_of_ready {s : State} (h : s.phase = .ready) : step s = stepReady s := by
  simp only [step, engineStep, h]

theorem step_of_notReady {s : State} (h : s.phase = .notReady) : step s = .refused .notReady := by
  simp only [step, engineStep, h]

theorem step_of_halted {s : State} {cause : Fault} (h : s.phase = .halted cause) :
    step s = .refused .halted := by
  simp only [step, engineStep, h]

/-- A step on an opcode byte with no handler (R97). -/
theorem stepReady_unknown {s : State} (h : decodeOpcode (s.memRead s.pc) = none) :
    stepReady s = .next (fatalStop (.unknownOpcode s.pc (s.memRead s.pc)) s.passByte) := by
  simp only [stepReady, State.fetchedBytes, fetchLength_unknown h, State.bytesFrom, decode_unknown h]

/-- The bytes a step fetches when an instruction stands at `pc` (R53). -/
theorem fetchedBytes_of_instrAt {s : State} {i : Instr}
    (h : s.bytesFrom s.pc i.length = encode i) : decode s.fetchedBytes = .ok (i, []) := by
  rw [← operands_length, State.bytesFrom, encode] at h
  have hop : s.memRead s.pc = encodeOpcode i.mode := (List.cons.inj h).1
  have hlen : i.mode.format.length = i.operands.length + 1 := (operands_length i).symm
  have := decode_operands i []
  rw [List.append_nil] at this
  rw [State.fetchedBytes, hop, fetchLength_encodeOpcode, hlen, State.bytesFrom, hop, (List.cons.inj h).2, this]

theorem stepReady_of_instrAt {s : State} {i : Instr} (h : s.bytesFrom s.pc i.length = encode i) :
    stepReady s = exec i s.passByte := by
  simp only [stepReady, fetchedBytes_of_instrAt h]

/-- What a longer read decodes to stands at `pc`. -/
theorem instrAt_of_decode {s : State} {i : Instr} {rest : List Byte}
    (h : decode (s.bytesFrom s.pc 3) = .ok (i, rest)) : s.bytesFrom s.pc i.length = encode i := by
  have hb := decode_ok h
  have hlen : (encode i).length = i.length := by rw [encode, List.length_cons, operands_length]
  rw [← List.cons_append] at hb
  have hle : i.length ≤ 3 := by cases i <;> simp [Instr.length, Instr.mode, Mode.format, Format.length]
  obtain ⟨k, hk⟩ := Nat.exists_eq_add_of_le hle
  rw [hk, bytesFrom_append] at hb
  exact (List.append_inj hb (by rw [bytesFrom_length]; exact hlen.symm)).1

/-- Either an instruction stands at `pc`, or the byte there has no handler (R55). -/
theorem instrAt_or_unknown (s : State) :
    (∃ i, s.bytesFrom s.pc i.length = encode i) ∨ decodeOpcode (s.memRead s.pc) = none := by
  cases hd : decodeOpcode (s.memRead s.pc) with
  | none => exact .inr rfl
  | some m =>
    left
    have hop := (decodeOpcode_eq_some_iff _ _).mp hd
    cases m
    case immediate => exact ⟨.ldaImm (s.memRead (s.pc + 1)), by rw [encode, Instr.mode, ← hop]; rfl⟩
    case zeroPage => exact ⟨.ldaZp (s.memRead (s.pc + 1)), by rw [encode, Instr.mode, ← hop]; rfl⟩
    case zeroPageX => exact ⟨.ldaZpX (s.memRead (s.pc + 1)), by rw [encode, Instr.mode, ← hop]; rfl⟩
    case absolute =>
      exact ⟨.ldaAbs (s.memRead (s.pc + 1)) (s.memRead (s.pc + 1 + 1)), by rw [encode, Instr.mode, ← hop]; rfl⟩
    case absoluteX =>
      exact ⟨.ldaAbsX (s.memRead (s.pc + 1)) (s.memRead (s.pc + 1 + 1)), by rw [encode, Instr.mode, ← hop]; rfl⟩
    case absoluteY =>
      exact ⟨.ldaAbsY (s.memRead (s.pc + 1)) (s.memRead (s.pc + 1 + 1)), by rw [encode, Instr.mode, ← hop]; rfl⟩
    case indirectX => exact ⟨.ldaIndX (s.memRead (s.pc + 1)), by rw [encode, Instr.mode, ← hop]; rfl⟩
    case indirectY => exact ⟨.ldaIndY (s.memRead (s.pc + 1)), by rw [encode, Instr.mode, ← hop]; rfl⟩

/-- Everything a step of a `Ready` engine can do: run the instruction at `pc`, which loads a byte and counts 2 to 6 cycles,
or stop on an unknown opcode. -/
theorem stepReady_shape (s : State) :
    (∃ i v c, s.bytesFrom s.pc i.length = encode i ∧ 2 ≤ c ∧ c ≤ 6 ∧
      stepReady s = .next ((loadA v (s.setPc (s.pc + BitVec.ofNat 16 i.length))).addCycles c)) ∨
    (decodeOpcode (s.memRead s.pc) = none ∧
      stepReady s = .next (fatalStop (.unknownOpcode s.pc (s.memRead s.pc)) s.passByte)) := by
  rcases instrAt_or_unknown s with ⟨i, hi⟩ | hu
  · obtain ⟨v, c, h2, h6, he⟩ := exec_shape i s.passByte
    refine .inl ⟨i, v, c, hi, h2, h6, ?_⟩
    rw [stepReady_of_instrAt hi, he]
    have hpc : s.pc + 1 + BitVec.ofNat 16 i.operands.length = s.pc + BitVec.ofNat 16 i.length := by
      rw [← operands_length, BitVec.add_assoc]
      congr 1
      cases i <;> rfl
    rw [passByte_pc, hpc]
    rfl
  · exact .inr ⟨hu, stepReady_unknown hu⟩

end Sys2Proof.Machine
end

