-- ==== Sys2Proof/Laws/Boundary.lean ====
section
/-! SUPPORT. What each operation of the host can do, said once (00_scope R7). -/

namespace Sys2Proof.Machine

theorem unlessHalted_halted {s : State} {cause : Fault} (h : s.phase = .halted cause) (reply : Reply) :
    unlessHalted s reply = refuse .halted s := by
  simp only [unlessHalted, h]

theorem unlessHalted_enabled {s : State} (h : s.phase = .notReady ∨ s.phase = .ready) (reply : Reply) :
    unlessHalted s reply = reply := by
  rcases h with h | h <;> simp only [unlessHalted, h]

/-- In `Halted` the operation is refused; otherwise it does what it does. -/
theorem unlessHalted_cases (s : State) (reply : Reply) :
    ((∃ cause, s.phase = .halted cause) ∧ unlessHalted s reply = refuse .halted s) ∨
    ((s.phase = .notReady ∨ s.phase = .ready) ∧ unlessHalted s reply = reply) := by
  cases h : s.phase with
  | halted cause => exact .inl ⟨⟨cause, rfl⟩, unlessHalted_halted h reply⟩
  | notReady => exact .inr ⟨.inl rfl, unlessHalted_enabled (.inl h) reply⟩
  | ready => exact .inr ⟨.inr rfl, unlessHalted_enabled (.inr h) reply⟩

/-- A step that stops, as the host sees it. -/
theorem hostOp_step_halted {s t : State} {cause : Fault} (h : step s = .next t) (ht : t.phase = .halted cause) :
    hostOp .step s = stopped cause t := by
  simp only [hostOp, hostStep, h, ht]

/-- A completed step, as the host sees it. -/
theorem hostOp_step_ready {s t : State} (h : step s = .next t) (ht : t.phase = .ready) :
    hostOp .step s = ran "step" (.cycles (t.cycles - s.cycles)) t := by
  simp only [hostOp, hostStep, h, ht]

theorem hostOp_step_refused {s : State} {r : Refusal} (h : step s = .refused r) :
    hostOp .step s = refuse r s := by
  show hostStep s = _
  unfold hostStep
  rw [h]

/-- Everything a `step()` can do: be refused, complete an instruction and return its count, or stop on an unknown
opcode. -/
theorem hostOp_step_cases (s : State) :
    (∃ r, step s = .refused r ∧ s.phase ≠ .ready ∧ hostOp .step s = refuse r s) ∨
    (∃ i v c, s.phase = .ready ∧ 2 ≤ c ∧ c ≤ 6 ∧ s.bytesFrom s.pc i.length = encode i ∧
      step s = .next ((loadA v (s.setPc (s.pc + BitVec.ofNat 16 i.length))).addCycles c) ∧
      hostOp .step s =
        ran "step" (.cycles c) ((loadA v (s.setPc (s.pc + BitVec.ofNat 16 i.length))).addCycles c)) ∨
    (s.phase = .ready ∧ decodeOpcode (s.memRead s.pc) = none ∧
      step s = .next (fatalStop (.unknownOpcode s.pc (s.memRead s.pc)) s.passByte) ∧
      hostOp .step s = stopped (.unknownOpcode s.pc (s.memRead s.pc))
        (fatalStop (.unknownOpcode s.pc (s.memRead s.pc)) s.passByte)) := by
  cases hs : s.phase with
  | notReady => exact .inl ⟨_, step_of_notReady hs, by simp, hostOp_step_refused (step_of_notReady hs)⟩
  | halted cause => exact .inl ⟨_, step_of_halted hs, by simp, hostOp_step_refused (step_of_halted hs)⟩
  | ready =>
    rcases stepReady_shape s with ⟨i, v, c, hi, h2, h6, e⟩ | ⟨hu, e⟩
    · rw [← step_of_ready hs] at e
      refine .inr (.inl ⟨i, v, c, rfl, h2, h6, hi, e, ?_⟩)
      rw [hostOp_step_ready e (by simp [loadA, hs])]
      simp [loadA]
    · rw [← step_of_ready hs] at e
      exact .inr (.inr ⟨rfl, hu, e, hostOp_step_halted e rfl⟩)

theorem hostOp_reset_halted {s : State} {cause : Fault} (h : s.phase = .halted cause) :
    hostOp .reset s = refuse .halted s := unlessHalted_halted h _

theorem hostOp_reset_enabled {s : State} (h : s.phase = .notReady ∨ s.phase = .ready) :
    hostOp .reset s = ran "reset" .done (resetEngine s) := unlessHalted_enabled h _

theorem hostOp_read (addr : Word) (s : State) :
    hostOp (.read addr) s = ran "read" (.byte (s.memRead addr)) s := by
  show hostRead addr s = _
  unfold hostRead
  rw [Memory.read_word]
  rfl

theorem hostOp_write (addr : Word) (v : Byte) (s : State) : hostOp (.write addr v) s =
    if 0x8000 ≤ addr.toNat then ran "write" (.failed (.romWriteAttempt addr)) s
    else unlessHalted s (ran "write" .done (s.setMem (Memory.put s.mem addr.toNat v))) := by
  show hostWrite addr v s = _
  unfold hostWrite
  rw [Memory.write_word]
  by_cases h : 0x8000 ≤ addr.toNat <;> simp only [h, if_true, if_false]

theorem hostOp_loadImage (bytes : List Byte) (s : State) : hostOp (.loadImage bytes) s =
    if Config.imageBase.toNat + bytes.length ≤ Config.memSize then
      unlessHalted s (ran "load_image" .accepted (s.setMem (Memory.place s.mem Config.imageBase.toNat bytes)))
    else ran "load_image" .imageOverflow s := by
  show hostLoadImage bytes s = _
  unfold hostLoadImage Memory.loadImage
  by_cases h : Config.imageBase.toNat + bytes.length ≤ Config.memSize <;> simp only [h, if_true, if_false]

/-- A test-bench set either happens, of a `Ready` engine, or is refused and changes nothing. -/
theorem benchSet_cases (t s : State) :
    (s.phase = .ready ∧ benchSet t s = ran "test_bench" .done t) ∨
    (s.phase ≠ .ready ∧ ∃ r, benchSet t s = refuse r s) := by
  unfold benchSet
  cases h : s.phase with
  | ready => exact .inl ⟨rfl, rfl⟩
  | notReady => exact .inr ⟨by simp, _, rfl⟩
  | halted cause => exact .inr ⟨by simp, _, rfl⟩

/-- No run starts outside `Ready`, of no steps either. -/
theorem runFrom_refused {s : State} (h : s.phase ≠ .ready) (n : Nat) : ∃ r, runFrom n s = .refused r := by
  have hstep : ∃ r, hostStep s = refuse r s := by
    rcases hostOp_step_cases s with ⟨r, _, _, e⟩ | ⟨_, _, _, hs, _⟩ | ⟨hs, _⟩
    · exact ⟨r, e⟩
    · exact absurd hs h
    · exact absurd hs h
  cases n with
  | zero =>
    cases hs : s.phase with
    | notReady => exact ⟨.notReady, by simp only [runFrom, hs]⟩
    | ready => exact absurd hs h
    | halted cause => exact ⟨.halted, by simp only [runFrom, hs]⟩
  | succ n =>
    obtain ⟨r, e⟩ := hstep
    exact ⟨r, by simp only [runFrom, e, refuse]⟩

end Sys2Proof.Machine
end

