-- ==== Sys2Proof/Laws/PerInstr.lean ====
section
/-! SUPPORT. The family of statements made once per constructor of Instr: the shape of its encoding (30_encoding R51,
R54). -/

namespace Sys2Proof.Laws.EncodingShape

/-- The encoding has the format's length, its first byte is the table's row of the instruction's mode, and the instruction
is well formed. -/
def Statement (i : Instr) : Prop :=
  (encode i).length = i.mode.format.length ∧
    (encode i).head?.bind decodeOpcode = some i.mode ∧ i.wellFormed = true

theorem ldaImm (d8 : Byte) : Statement (.ldaImm d8) := ⟨rfl, rfl, rfl⟩
theorem ldaZp (d8 : Byte) : Statement (.ldaZp d8) := ⟨rfl, rfl, rfl⟩
theorem ldaZpX (d8 : Byte) : Statement (.ldaZpX d8) := ⟨rfl, rfl, rfl⟩
theorem ldaAbs (lo hi : Byte) : Statement (.ldaAbs lo hi) := ⟨rfl, rfl, rfl⟩
theorem ldaAbsX (lo hi : Byte) : Statement (.ldaAbsX lo hi) := ⟨rfl, rfl, rfl⟩
theorem ldaAbsY (lo hi : Byte) : Statement (.ldaAbsY lo hi) := ⟨rfl, rfl, rfl⟩
theorem ldaIndX (d8 : Byte) : Statement (.ldaIndX d8) := ⟨rfl, rfl, rfl⟩
theorem ldaIndY (p : Byte) : Statement (.ldaIndY p) := ⟨rfl, rfl, rfl⟩

end Sys2Proof.Laws.EncodingShape
end

