-- ==== Sys2Proof/Laws/Reference.lean ====
section
/-! SUPPORT. What each handler of the transcribed pseudocode (`Machine/Reference.lean`) does from a point, said once: its
count, its state and the reads it adds, in order. -/

namespace Sys2Proof.Machine.Reference

variable (s : State) (reads : List Word)

theorem ldaImmediate_eq : ldaImmediate ⟨s, reads⟩ =
    (2, ⟨Machine.loadA (s.memRead s.pc) s.passByte, reads ++ [s.pc]⟩) := rfl

theorem ldaZeroPage_eq : ldaZeroPage ⟨s, reads⟩ =
    (3, ⟨Machine.loadA (s.memRead (zext16 (s.memRead s.pc))) s.passByte,
      reads ++ [s.pc] ++ [zext16 (s.memRead s.pc)]⟩) := rfl

theorem ldaZeroPageX_eq : ldaZeroPageX ⟨s, reads⟩ =
    (4, ⟨Machine.loadA (s.memRead (zext16 (s.memRead s.pc + s.x))) s.passByte,
      reads ++ [s.pc] ++ [zext16 (s.memRead s.pc + s.x)]⟩) := rfl

theorem ldaAbsolute_eq : ldaAbsolute ⟨s, reads⟩ =
    let ea := word (s.memRead (s.pc + 1)) (s.memRead s.pc)
    (4, ⟨Machine.loadA (s.memRead ea) s.passWord, reads ++ [s.pc] ++ [s.pc + 1] ++ [ea]⟩) := rfl

theorem ldaAbsoluteX_eq : ldaAbsoluteX ⟨s, reads⟩ =
    let base := word (s.memRead (s.pc + 1)) (s.memRead s.pc)
    let ea := indexed base s.x
    (if crossed base ea then 5 else 4,
      ⟨Machine.loadA (s.memRead ea) s.passWord, reads ++ [s.pc] ++ [s.pc + 1] ++ [ea]⟩) := rfl

theorem ldaAbsoluteY_eq : ldaAbsoluteY ⟨s, reads⟩ =
    let base := word (s.memRead (s.pc + 1)) (s.memRead s.pc)
    let ea := indexed base s.y
    (if crossed base ea then 5 else 4,
      ⟨Machine.loadA (s.memRead ea) s.passWord, reads ++ [s.pc] ++ [s.pc + 1] ++ [ea]⟩) := rfl

theorem ldaIndirectX_eq : ldaIndirectX ⟨s, reads⟩ =
    let p := s.memRead s.pc + s.x
    let ea := s.readWordZP p
    (6, ⟨Machine.loadA (s.memRead ea) s.passByte,
      reads ++ [s.pc] ++ [zext16 p] ++ [zext16 (p + 1)] ++ [ea]⟩) := rfl

theorem ldaIndirectY_eq : ldaIndirectY ⟨s, reads⟩ =
    let p := s.memRead s.pc
    let base := s.readWordZP p
    let ea := indexed base s.y
    (if crossed base ea then 6 else 5, ⟨Machine.loadA (s.memRead ea) s.passByte,
      reads ++ [s.pc] ++ [zext16 p] ++ [zext16 (p + 1)] ++ [ea]⟩) := rfl

/-- The handler of a mode's opcode byte (R54, R75). -/
theorem handler_encodeOpcode (m : Mode) : handler (encodeOpcode m) =
    match m with
    | .immediate => some ldaImmediate
    | .zeroPage => some ldaZeroPage
    | .zeroPageX => some ldaZeroPageX
    | .absolute => some ldaAbsolute
    | .absoluteX => some ldaAbsoluteX
    | .absoluteY => some ldaAbsoluteY
    | .indirectX => some ldaIndirectX
    | .indirectY => some ldaIndirectY := by
  cases m <;> rfl

/-- No handler outside the table (R55). -/
theorem handler_unknown {op : Byte} (h : decodeOpcode op = none) : handler op = none := by
  have hn := (decodeOpcode_eq_none_iff op).mp h
  simp only [List.mem_cons, List.not_mem_nil, or_false, not_or] at hn
  obtain ⟨h1, h2, h3, h4, h5, h6, h7, h8⟩ := hn
  simp only [handler, h1, h2, h3, h4, h5, h6, h7, h8, if_false]

/-- A step on a known opcode byte is its handler, entered one byte on with the opcode read. -/
theorem stepReady_handler {s : State} {h : Point → Nat × Point} (hh : handler (s.memRead s.pc) = some h) :
    stepReady s = { (h ⟨s.passByte, [s.pc]⟩).2 with
      st := (h ⟨s.passByte, [s.pc]⟩).2.st.addCycles (h ⟨s.passByte, [s.pc]⟩).1 } := by
  show (match handler (s.memRead s.pc) with
    | some h => _
    | none => _) = _
  rw [hh]
  rfl

theorem stepReady_unknown {s : State} (hd : decodeOpcode (s.memRead s.pc) = none) :
    stepReady s = ⟨fatalStop (.unknownOpcode s.pc (s.memRead s.pc)) s.passByte, [s.pc]⟩ := by
  show (match handler (s.memRead s.pc) with
    | some h => _
    | none => _) = _
  rw [handler_unknown hd]
  rfl

/-- The reads of a step that completes an instruction, in order (20_memory R45). -/
theorem stepReads_instrAt {s : State} {i : Instr} (hs : s.phase = .ready)
    (hi : s.bytesFrom s.pc i.length = encode i) : stepReads s =
      match i with
      | .ldaImm _ => [s.pc, s.pc + 1]
      | .ldaZp d8 => [s.pc, s.pc + 1, zext16 d8]
      | .ldaZpX d8 => [s.pc, s.pc + 1, zext16 (d8 + s.x)]
      | .ldaAbs lo hi => [s.pc, s.pc + 1, s.pc + 1 + 1, word hi lo]
      | .ldaAbsX lo hi => [s.pc, s.pc + 1, s.pc + 1 + 1, indexed (word hi lo) s.x]
      | .ldaAbsY lo hi => [s.pc, s.pc + 1, s.pc + 1 + 1, indexed (word hi lo) s.y]
      | .ldaIndX d8 =>
        [s.pc, s.pc + 1, zext16 (d8 + s.x), zext16 (d8 + s.x + 1), s.readWordZP (d8 + s.x)]
      | .ldaIndY p => [s.pc, s.pc + 1, zext16 p, zext16 (p + 1), indexed (s.readWordZP p) s.y] := by
  rw [← operands_length, State.bytesFrom, encode] at hi
  obtain ⟨hop, hops⟩ := List.cons.inj hi
  have hh := handler_encodeOpcode i.mode
  rw [← hop] at hh
  simp only [stepReads, hs]
  cases i <;> rw [stepReady_handler hh] <;>
    simp only [Instr.operands, List.length_cons, List.length_nil, State.bytesFrom, List.cons.injEq,
      and_true, Nat.zero_add] at hops ⊢
  case ldaAbs lo hi => obtain ⟨rfl, rfl⟩ := hops; rfl
  case ldaAbsX lo hi => obtain ⟨rfl, rfl⟩ := hops; rfl
  case ldaAbsY lo hi => obtain ⟨rfl, rfl⟩ := hops; rfl
  all_goals subst hops; rfl

end Sys2Proof.Machine.Reference
end

