-- ==== Sys2Proof/Machine/Assembly.lean ====
section
/-! DEFINITION. The assembler notation in which the spec writes instructions (30_encoding R58, 92 D12): for reading only,
"The syntax has no normative force". Nothing else uses it. -/

namespace Sys2Proof.Machine

/-- One hexadecimal digit. -/
def hexDigit (n : Nat) : Char :=
  if n < 10 then Char.ofNat (48 + n) else Char.ofNat (55 + n)

/-- A byte as `$nn`, without the `$`. -/
def hexByte (b : Byte) : String :=
  String.ofList [hexDigit (b.toNat / 16), hexDigit (b.toNat % 16)]

/-- An instruction in the notation of R58. -/
def assembly : Instr → String
  | .ldaImm d8 => "LDA #$" ++ hexByte d8
  | .ldaZp d8 => "LDA $" ++ hexByte d8
  | .ldaZpX d8 => "LDA $" ++ hexByte d8 ++ ",X"
  | .ldaAbs lo hi => "LDA $" ++ hexByte hi ++ hexByte lo
  | .ldaAbsX lo hi => "LDA $" ++ hexByte hi ++ hexByte lo ++ ",X"
  | .ldaAbsY lo hi => "LDA $" ++ hexByte hi ++ hexByte lo ++ ",Y"
  | .ldaIndX d8 => "LDA ($" ++ hexByte d8 ++ ",X)"
  | .ldaIndY p => "LDA ($" ++ hexByte p ++ "),Y"

end Sys2Proof.Machine
end

