-- ==== Sys2Proof/Tests/Slice0.lean ====
section
/-! SUPPORT. The model's own tests. Expected values come from 95_test_vectors (named S, M, F, P, A, L, X, Z as there) or
from the rule named; then one witness for the hypotheses of each obligation. -/

namespace Sys2Proof.Tests

open Sys2Proof.Machine

/-- A launch state of 95_test_vectors: `A=00 SP=FF P=00 cycles=0 phase=Ready`, the given `pc`, `X`, `Y` and memory. -/
def bench (pc : Word) (x y : Byte) (mem : Memory) : State :=
  { State.reset with pc := pc, x := x, y := y, mem := mem }

/-- The state after one step, if there is one. -/
def after (s : State) : Option State :=
  match step s with
  | .next t => some t
  | _ => none

/-- What the vectors of section 2.5 list: `A`, `P`, `pc`, and the count returned. -/
def seen (s : State) : Option (Byte × Byte × Word × Response) :=
  (after s).map fun t => (t.a, t.p, t.pc, (hostOp .step s).response)

/-! ## Well-formedness smoke -/

theorem test_operands_missing_refused : operandsFit .opD8 [] = false := by decide
theorem test_operands_too_many_refused : operandsFit .opD8 [0x01, 0x02] = false := by decide
theorem test_address_too_short_refused : operandsFit .opA16 [0x34] = false := by decide
theorem test_address_fits : operandsFit .opA16 [0x34, 0x12] = true := by decide

/-! ## Decoding: words written out bit by bit from the table's "encoding" column -/

theorem test_decode_imm : decode [0b10101001, 0b00000101] = .ok (.ldaImm 0x05, []) := by decide
theorem test_decode_zp : decode [0b10100101, 0b00010000] = .ok (.ldaZp 0x10, []) := by decide
theorem test_decode_zpx : decode [0b10110101, 0b11110000] = .ok (.ldaZpX 0xF0, []) := by decide
theorem test_decode_abs :
    decode [0b10101101, 0b00110100, 0b00010010] = .ok (.ldaAbs 0x34 0x12, []) := by decide
theorem test_decode_absx :
    decode [0b10111101, 0b11110000, 0b00010010] = .ok (.ldaAbsX 0xF0 0x12, []) := by decide
theorem test_decode_absy :
    decode [0b10111001, 0b11110000, 0b00000000] = .ok (.ldaAbsY 0xF0 0x00, []) := by decide
theorem test_decode_indx : decode [0b10100001, 0b00010000] = .ok (.ldaIndX 0x10, []) := by decide
theorem test_decode_indy :
    decode [0b10110001, 0b11111111, 0x77] = .ok (.ldaIndY 0xFF, [0x77]) := by decide
theorem test_decode_truncated : decode [0xAD, 0x34] = .error .truncated := by decide

/-- The near misses of vector X7. -/
theorem test_decode_near_misses :
    [0xA2, 0xA0, 0xA6, 0xB6, 0xAE, 0xBE, 0xB2, 0xA3, 0xA7, 0xAF, 0xB3, 0xB7, 0xBF, 0xA8, 0xB8].map
      decodeOpcode = List.replicate 15 none := by decide

theorem test_table_word_two_bytes : decodeTableWord 16 0x05A9 = some (.ldaImm 0x05) := by decide
theorem test_table_word_three_bytes : decodeTableWord 24 0x1234BD = some (.ldaAbsX 0x34 0x12) := by decide
theorem test_table_word_opcode_only : decodeTableWord 8 0xFFB1 = some (.ldaIndY 0x00) := by decide
theorem test_encode_absy : encode (.ldaAbsY 0xF0 0x00) = [0xB9, 0xF0, 0x00] := by decide

/-- The examples of R58's table. -/
theorem test_assembly :
    [Instr.ldaImm 0x05, .ldaZpX 0xF0, .ldaAbs 0x34 0x12, .ldaIndX 0x10, .ldaIndY 0xFF].map assembly =
      ["LDA #$05", "LDA $F0,X", "LDA $1234", "LDA ($10,X)", "LDA ($FF),Y"] := by decide

/-! ## Instructions -/

/-- L1 (source S7). -/
theorem test_ldaImm : seen (bench 0x0200 0 0 [(0x200, 0xA9), (0x201, 0x05)]) =
    some (0x05, 0x00, 0x0202, .cycles 2) := by decide
/-- L4: only N and Z change. -/
theorem test_ldaImm_keeps_flags :
    seen { bench 0x0200 0 0 [(0x200, 0xA9), (0x201, 0x7F)] with p := 0xDF } =
      some (0x7F, 0x5D, 0x0202, .cycles 2) := by decide
/-- L8: zero-extended. -/
theorem test_ldaZp : seen (bench 0x0200 0 0 [(0x80, 0x12), (0x200, 0xA5), (0x201, 0x80), (0xFF80, 0x99)]) =
    some (0x12, 0x00, 0x0202, .cycles 3) := by decide
/-- L10: wraps in page 0. -/
theorem test_ldaZpX : seen (bench 0x0200 0xFF 0 [(0xFE, 0x5A), (0x200, 0xB5), (0x201, 0xFF)]) =
    some (0x5A, 0x00, 0x0202, .cycles 4) := by decide
/-- L11: Z set. -/
theorem test_ldaAbs : seen (bench 0x0200 0 0 [(0x200, 0xAD), (0x201, 0x34), (0x202, 0x12)]) =
    some (0x00, 0x02, 0x0203, .cycles 4) := by decide
/-- L24: the instruction straddles the wrap. -/
theorem test_ldaAbs_wraps : seen (bench 0xFFFE 0 0 [(0x1, 0x99), (0xFFFE, 0xAD), (0xFFFF, 0x01)]) =
    some (0x99, 0x80, 0x0001, .cycles 4) := by decide
/-- L14: no cross. -/
theorem test_ldaAbsX : seen (bench 0x0200 0xFF 0 [(0x200, 0xBD), (0x202, 0x12), (0x12FF, 0x80)]) =
    some (0x80, 0x80, 0x0203, .cycles 4) := by decide
/-- L15: cross. -/
theorem test_ldaAbsX_cross :
    seen (bench 0x0200 0xFF 0 [(0x200, 0xBD), (0x201, 0x01), (0x202, 0x12), (0x1300, 0x11)]) =
      some (0x11, 0x00, 0x0203, .cycles 5) := by decide
/-- L17 (source S5b). -/
theorem test_ldaAbsY : seen (bench 0x0200 0 0x05 [(0x15, 0x44), (0x200, 0xB9), (0x201, 0x10)]) =
    some (0x44, 0x00, 0x0203, .cycles 4) := by decide
/-- L18: the target wraps past 0xFFFF, and that is a cross. -/
theorem test_ldaAbsY_wraps :
    seen (bench 0x0200 0 0x20 [(0x10, 0x21), (0x200, 0xB9), (0x201, 0xF0), (0x202, 0xFF)]) =
      some (0x21, 0x00, 0x0203, .cycles 5) := by decide
/-- L19 (source S8). -/
theorem test_ldaIndX : seen (bench 0x0200 0x04 0 [(0x15, 0x90), (0x200, 0xA1), (0x201, 0x10), (0x9000, 0x42)]) =
    some (0x42, 0x00, 0x0202, .cycles 6) := by decide
/-- L20: the pointer's high byte comes from 0x0000. -/
theorem test_ldaIndX_pointer_wraps :
    seen (bench 0x0200 0x01 0 [(0x0, 0x30), (0x100, 0x77), (0x200, 0xA1), (0x201, 0xFE), (0x3000, 0x9C)]) =
      some (0x9C, 0x80, 0x0202, .cycles 6) := by decide
/-- L21: cross. -/
theorem test_ldaIndY_cross :
    seen (bench 0x0200 0 0x20 [(0x20, 0xF0), (0x21, 0x12), (0x200, 0xB1), (0x201, 0x20), (0x1310, 0x01)]) =
      some (0x01, 0x00, 0x0202, .cycles 6) := by decide
/-- L22: no cross. -/
theorem test_ldaIndY : seen (bench 0x0200 0 0xFF [(0x21, 0x12), (0x200, 0xB1), (0x201, 0x20)]) =
    some (0x00, 0x02, 0x0202, .cycles 5) := by decide

/-! ## The rest of the block -/

/-- X1. -/
theorem test_unknown_opcode :
    (after { bench 0x0200 0x02 0x03 [(0x200, 0xEA)] with a := 0x11, p := 0x41 }).map
        (fun t => (t.pc, t.a, t.p, t.phase)) =
      some (0x0201, 0x11, 0x41, .halted (.unknownOpcode 0x0200 0xEA)) := by decide
/-- X3. -/
theorem test_unknown_opcode_wraps :
    (after (bench 0xFFFF 0 0 [(0xFFFF, 0x4C)])).map (fun t => (t.pc, t.phase)) =
      some (0x0000, .halted (.unknownOpcode 0xFFFF 0x4C)) := by decide
/-- X4 and X5. -/
theorem test_halted_refuses :
    let s : State := { State.reset with phase := .halted (.unknownOpcode 0x0200 0xEA) }
    (hostOp .step s).response = .refused .halted ∧ (hostOp .reset s).response = .refused .halted := by decide
/-- R100: memory keeps its values in `Halted`, and is still read; R37: a write into the read-only region fails. -/
theorem test_halted_keeps_memory :
    let s : State := fatalStop (.unknownOpcode 0x0200 0xEA) (bench 0x0201 0 0 [(0x0200, 0xEA)])
    (hostOp (.write 0x0100 0x01) s).state = s ∧ (hostOp (.read 0x0200) s).response = .byte 0xEA ∧
      (hostOp (.write 0x8000 0x01) s).response = .failed (.romWriteAttempt 0x8000) := by decide
/-- R81: a run of no steps is a run of a `Ready` engine only (log 24). -/
theorem test_run_of_no_steps :
    runFrom 0 State.reset = .afterSteps State.reset ∧
      runFrom 0 (fatalStop (.unknownOpcode 0 0) State.reset) = .refused .halted := by decide
/-- X6. -/
theorem test_step_before_reset : (hostOp .step (State.powerOn 0)).response = .refused .notReady := rfl
/-- M2 and M3. -/
theorem test_write_at_the_boundary :
    let s := bench 0x0200 0 0 [(0x8000, 0x5A)]
    (hostOp (.write 0x7FFF 0x01) s).state.mem = [(0x7FFF, 0x01), (0x8000, 0x5A)] ∧
    (hostOp (.write 0x8000 0x01) s).response = .failed (.romWriteAttempt 0x8000) := by decide
/-- M8, and writing the fill byte back unlists the cell (log 9). -/
theorem test_write_again :
    let s := (hostOp (.write 0x0100 0x22) (hostOp (.write 0x0100 0x11) State.reset).state).state
    s.mem = [(0x0100, 0x22)] ∧ (hostOp (.write 0x0100 0x00) s).state = State.reset := by decide
/-- M9, M10, M11 at a base of 0xFFFE. -/
theorem test_loadImage :
    Memory.loadImage [] 0xFFFE [0xAB, 0xCD] = some [(0xFFFE, 0xAB), (0xFFFF, 0xCD)] ∧
    Memory.loadImage [] 0xFFFE [0xAB, 0xCD, 0xEF] = none ∧
    Memory.loadImage [] 0xFFFE [] = some [] := by decide
/-- F1, F3, F7. -/
theorem test_setFlag :
    setFlag 0x00 .negative true = 0x80 ∧ setFlag 0x82 .negative false = 0x02 ∧
    setFlag 0xDF .zero false = 0xDD := by decide
/-- F4. -/
theorem test_setFlag_sequence :
    let p₁ := setFlag 0x00 .carry true
    let p₂ := setFlag p₁ .overflow true
    let p₃ := setFlag p₂ .brk true
    let p₄ := setFlag p₃ .decimal true
    [p₁, p₂, p₃, p₄, setFlag p₄ .interruptDisable true] = [0x01, 0x41, 0x51, 0x59, 0x5D] := by decide
/-- P4. -/
theorem test_fetchWord_wraps :
    let r := fetchWord (bench 0xFFFF 0 0 [(0x0, 0x12), (0xFFFF, 0x34)])
    r.1 = 0x1234 ∧ r.2.pc = 0x0001 := by decide
/-- Z1: reset from a used state. -/
theorem test_reset :
    let s : State := { a := 0x55, x := 0x09, y := 0x07, sp := 0x12, pc := 0x1234, p := 0xDF,
                       mem := [(0xFFFD, 0x80)], phase := .ready, cycles := 99 }
    (hostOp .reset s).state = { State.reset with pc := 0x8000, mem := [(0xFFFD, 0x80)] } := by decide
/-- Z2: both bytes of the vector are read. -/
theorem test_reset_vector :
    (hostOp .reset (bench 0 0 0 [(0xFFFC, 0x34), (0xFFFD, 0x12)])).state.pc = 0x1234 := by decide
/-- R17. -/
theorem test_stackAddress : State.reset.stackAddress = 0x01FF := by decide
/-- The reads of L21's step, in the order of R45. -/
theorem test_reads_in_order :
    Reference.stepReads (bench 0x0200 0 0x20 [(0x20, 0xF0), (0x21, 0x12), (0x200, 0xB1), (0x201, 0x20)]) =
      [0x0200, 0x0201, 0x0020, 0x0021, 0x1310] := by decide
/-- R81(b): a run over one instruction into unloaded memory. -/
theorem test_run_ends_at_fatal :
    (match runFrom 5 (bench 0x0200 0 0 [(0x200, 0xA9), (0x201, 0x01)]) with
      | .atFatal cause t => some (cause, t.pc, t.cycles)
      | _ => none) = some (.unknownOpcode 0x0202 0x00, 0x0203, 2) := by decide
/-- Log 15: the machine after reset runs a placed instruction first. -/
theorem test_withFetchWord :
    (after (State.reset.withFetchWord 16 0x80A9)).map (fun t => (t.a, t.pc)) = some (0x80, 0x0002) := by decide

/-! ## Witnesses: a state and operands that meet the hypotheses of each obligation -/

/-- `A9 05` at 0x0200. -/
def immAt : State := bench 0x0200 0 0 [(0x200, 0xA9), (0x201, 0x05)]

/-- `BD 01 12` at 0x0200, `X = FF`. -/
def absXAt : State := bench 0x0200 0xFF 0 [(0x200, 0xBD), (0x201, 0x01), (0x202, 0x12)]

theorem witness_EncodeOfDecodeIsTheBytes : decode [0xA9, 0x05, 0xFF] = .ok (.ldaImm 0x05, [0xFF]) := by decide

theorem witness_UnlistedOpcodesHaveNoHandler :
    (0x00 : Byte) ∉ [(0xA9 : Byte), 0xA5, 0xB5, 0xAD, 0xBD, 0xB9, 0xA1, 0xB1] ∧
      State.reset.phase = .ready ∧ State.reset.memRead State.reset.pc = 0x00 := by decide

theorem witness_LengthIsToldByTheOpcodeByte :
    decode [0xAD, 0x34, 0x12] = .ok (.ldaAbs 0x34 0x12, []) ∧
      decode [0xAD, 0x00, 0x00, 0x01] = .ok (.ldaAbs 0x00 0x00, [0x01]) ∧
      State.reset.phase = .ready ∧ decodeOpcode (State.reset.memRead State.reset.pc) = none := by decide

theorem witness_StepRunsTheDecodedInstruction :
    immAt.phase = .ready ∧ decode (immAt.bytesFrom immAt.pc 3) = .ok (.ldaImm 0x05, [0x00]) ∧
      absXAt.phase = .ready ∧ decode (absXAt.bytesFrom absXAt.pc 3) = .ok (.ldaAbsX 0x01 0x12, []) := by decide

theorem witness_PcAdvancesByTheInstructionLength :
    immAt.phase = .ready ∧ decode (immAt.bytesFrom immAt.pc 3) = .ok (.ldaImm 0x05, [0x00]) := by decide

theorem witness_StepReturnsTheCostOfTheMode :
    absXAt.phase = .ready ∧ decode (absXAt.bytesFrom absXAt.pc 3) = .ok (.ldaAbsX 0x01 0x12, []) := by decide

theorem witness_StepIsRefusedOutsideReady :
    immAt.phase = .ready ∧ (State.powerOn 0).phase = .notReady ∧
      (fatalStop (.unknownOpcode 0 0) immAt).phase = .halted (.unknownOpcode 0 0) := ⟨rfl, rfl, rfl⟩

theorem witness_UnknownOpcodeStopsTheEngine :
    let s := bench 0xFFFF 0 0 [(0xFFFF, 0x4C)]
    s.phase = .ready ∧ s.memRead s.pc = 0x4C ∧
      (0x4C : Byte) ∉ [(0xA9 : Byte), 0xA5, 0xB5, 0xAD, 0xBD, 0xB9, 0xA1, 0xB1] := by decide

theorem witness_StepReturnsACountOrUnknownOpcode :
    immAt.phase = .ready ∧ (hostOp .step immAt).response = .cycles 2 ∧
      State.reset.phase = .ready ∧
      (hostOp .step State.reset).response = .fatal (.unknownOpcode 0 0) := by decide

theorem witness_StepChangesOnlyWhatTheRuleLists :
    immAt.phase = .ready ∧ (after immAt).map State.phase = some .ready ∧
      State.reset.phase = .ready ∧
      (after State.reset).map State.phase = some (.halted (.unknownOpcode 0 0)) := by decide

theorem witness_StepReadsAtMostFiveBytes : immAt.phase = .ready := rfl

theorem witness_LdaImmediateLoadsItsOperand : immAt.phase = .ready ∧ immAt.InstrAt [0xA9, 0x05] := by decide

theorem witness_LdaZeroPageLoadsFromPageZero :
    let s := bench 0x0200 0 0 [(0x200, 0xA5), (0x201, 0xFF)]
    s.phase = .ready ∧ s.InstrAt [0xA5, 0xFF] := by decide

theorem witness_LdaZeroPageXWrapsInPageZero :
    let s := bench 0x0200 0x01 0 [(0x200, 0xB5), (0x201, 0xFF)]
    s.phase = .ready ∧ s.InstrAt [0xB5, 0xFF] := by decide

theorem witness_LdaAbsoluteLoadsFromItsAddress :
    let s := bench 0xFFFE 0 0 [(0x1, 0x99), (0xFFFE, 0xAD), (0xFFFF, 0x01)]
    s.phase = .ready ∧ s.InstrAt [0xAD, 0x01, 0x00] := by decide

theorem witness_LdaAbsoluteXAddsXAndChargesACross :
    absXAt.phase = .ready ∧ absXAt.InstrAt [0xBD, 0x01, 0x12] := by decide

theorem witness_LdaAbsoluteYAddsYAndChargesACross :
    let s := bench 0x0200 0 0x20 [(0x200, 0xB9), (0x201, 0xF0), (0x202, 0xFF)]
    s.phase = .ready ∧ s.InstrAt [0xB9, 0xF0, 0xFF] := by decide

theorem witness_LdaIndirectXReadsThroughAnIndexedPointer :
    let s := bench 0x0200 0x01 0 [(0x0, 0x30), (0x200, 0xA1), (0x201, 0xFE)]
    s.phase = .ready ∧ s.InstrAt [0xA1, 0xFE] := by decide

theorem witness_LdaIndirectYIndexesThePointersContent :
    let s := bench 0x0200 0 0x02 [(0x20, 0xFF), (0x21, 0xFF), (0x200, 0xB1), (0x201, 0x20)]
    s.phase = .ready ∧ s.InstrAt [0xB1, 0x20] := by decide

theorem witness_EveryLoadSetsZeroAndNegativeFromItsValue :
    (0x00 : Byte).toNat = 0 ∧ 1 ≤ (0x01 : Byte).toNat ∧ (0x7F : Byte).toNat ≤ 127 ∧
      128 ≤ (0x80 : Byte).toNat := by decide

theorem witness_LoadsChangeAndReadNothingElse :
    (Instr.ldaImm 0).mode ∉ [Mode.zeroPageX, .absoluteX, .indirectX] ∧
      (Instr.ldaAbsX 0 0).mode ∉ [Mode.absoluteY, .indirectY] ∧
      Flag.carry ≠ .zero ∧ Flag.carry ≠ .negative := by decide

theorem witness_InertFlagsHaveNoEffectOnAStep :
    Flag.decimal ≠ .zero ∧ Flag.decimal ≠ .negative ∧ immAt.phase = .ready := by decide

theorem witness_WriteStoresBelowRomAndFailsAbove :
    Memory.wf immAt.mem = true ∧ (0x7FFF : Word).toNat ≤ 0x7FFF ∧ (0x200 : Word) ≠ 0x7FFF ∧
      (immAt.phase = .notReady ∨ immAt.phase = .ready) ∧
      (fatalStop (.unknownOpcode 0 0) immAt).phase = .halted (.unknownOpcode 0 0) ∧
      0x8000 ≤ (0x8000 : Word).toNat := by decide

theorem witness_AddressOutOfBoundsIsCheckedAndUnreachable : 65536 > 0xFFFF := by decide

theorem witness_LoadImagePlacesTheWholeImageOrNothing :
    Memory.wf State.reset.mem = true ∧
      (State.reset.phase = .notReady ∨ State.reset.phase = .ready) ∧
      (fatalStop (.unknownOpcode 0 0) State.reset).phase = .halted (.unknownOpcode 0 0) ∧
      Config.imageBase.toNat + ([0xA9] : List Byte).length ≤ 65536 ∧
      Config.imageBase.toNat + (List.replicate 65537 (0 : Byte)).length > 65536 := by
  refine ⟨rfl, .inr rfl, rfl, Config.imageBase.isLt, ?_⟩
  rw [List.length_replicate]
  omega

theorem witness_CanonicalMemoriesThatReadAlikeAreEqual :
    Memory.wf [(0x0, 0x01), (0xFFFF, 0x02)] = true ∧
      ∀ n, n < 65536 → Memory.lookup [(0x0, 0x01), (0xFFFF, 0x02)] n =
        Memory.lookup [(0x0, 0x01), (0xFFFF, 0x02)] n := ⟨by decide, fun _ _ => rfl⟩

theorem witness_CodeWrittenByTheHostIsFetched :
    let s := bench 0x7FFE 0 0 []
    s.Launch ∧ s.pc.toNat + 1 < 0x8000 := by decide

theorem witness_ZeroPageArithmeticNeverLeavesPageZero :
    let zpx := bench 0x0200 0xFF 0 [(0x200, 0xB5), (0x201, 0xFF)]
    let indx := bench 0x0200 0xFF 0 [(0x200, 0xA1), (0x201, 0xFF)]
    let indy := bench 0x0200 0 0xFF [(0x200, 0xB1), (0x201, 0xFF)]
    (zpx.phase = .ready ∧ zpx.InstrAt (encode (.ldaZpX 0xFF))) ∧
      (indx.phase = .ready ∧ indx.InstrAt (encode (.ldaIndX 0xFF))) ∧
      (indy.phase = .ready ∧ indy.InstrAt (encode (.ldaIndY 0xFF))) := by decide

theorem witness_StackPointerIsInert : State.reset.phase = .ready := rfl

theorem witness_ResetLeavesTheStatedValues :
    ((State.powerOn 0).phase = .notReady ∨ (State.powerOn 0).phase = .ready) ∧
      (immAt.phase = .notReady ∨ immAt.phase = .ready) := ⟨.inl rfl, .inr rfl⟩

theorem witness_HaltedIsTerminal :
    (fatalStop (.unknownOpcode 0x0200 0xEA) immAt).phase = .halted (.unknownOpcode 0x0200 0xEA) := rfl

theorem witness_PhaseMovesOnlyAsTheRuleSays :
    (hostOp .step State.reset).state.phase = .halted (.unknownOpcode 0 0) := by decide

theorem witness_CyclesSumWhatStepsReturn :
    (hostOp .step immAt).response = .cycles 2 ∧
      (hostOp .step State.reset).response = .fatal (.unknownOpcode 0 0) ∧
      (State.powerOn 0).phase = .notReady := ⟨by decide, by decide, rfl⟩

theorem witness_OnlyTheseFailuresArise :
    (hostOp .step State.reset).response = .fatal (.unknownOpcode 0 0) ∧
      (hostOp (.write 0xFFFF 0x01) State.reset).response = .failed (.romWriteAttempt 0xFFFF) := by decide

theorem witness_OnlyTheseFailuresArise_image :
    (hostOp (.loadImage (List.replicate 65537 0)) State.reset).response = .imageOverflow := by
  rw [hostOp_loadImage, if_neg]
  · rfl
  · rw [List.length_replicate]
    show ¬(_ ≤ 65536)
    omega

theorem witness_ContextQueryShowsTheRegisters : immAt.phase ≠ .notReady := by decide

theorem witness_TestBenchSetsOnlyAReadyEngine :
    immAt.phase = .ready ∧ (State.powerOn 0).phase ≠ .ready := ⟨rfl, Phase.noConfusion⟩

theorem witness_StepKeepsTheInvariant : immAt.Inv ∧ (after immAt).isSome = true := by decide

theorem witness_HostOperationsKeepTheInvariant :
    State.reset.Inv ∧ (fatalStop (.unknownOpcode 0x01FF 0xEA) (bench 0x0200 0 0 [])).Inv := by decide

theorem witness_RunsNeverChangeMemoryOrIndexRegisters :
    core.run 2 (bench 0xFFFE 0 0 [(0x0, 0xA5), (0x1, 0x02), (0xFFFE, 0xA9), (0xFFFF, 0x42)]) =
      .next { bench 0x0002 0 0 [(0x0, 0xA5), (0x1, 0x02), (0xFFFE, 0xA9), (0xFFFF, 0x42)] with
        p := 0x02, cycles := 5 } := rfl

theorem witness_RunsCountTwoToSixCyclesAStep : immAt.phase = .ready := rfl

theorem witness_NoRunStartsOutsideReady :
    (State.powerOn 0).phase ≠ .ready ∧ (fatalStop (.unknownOpcode 0 0) immAt).phase ≠ .ready :=
  ⟨Phase.noConfusion, Phase.noConfusion⟩

theorem witness_StraightLineProgramsRunSafely :
    let s := bench 0xFFFE 0 0 [(0x0, 0xA5), (0x1, 0x02), (0xFFFE, 0xA9), (0xFFFF, 0x42)]
    s.phase = .ready ∧ s.InstrAt ([Instr.ldaImm 0x42, .ldaZp 0x02].flatMap encode) := by decide

theorem witness_PlacedTableWordIsTheNextInstruction :
    Memory.wf State.reset.mem = true ∧ decodeTableWord 24 0x1234AD = some (.ldaAbs 0x34 0x12) ∧
      (0x0003 : Word) ≠ State.reset.pc ∧ (0x0003 : Word) ≠ State.reset.pc + 1 ∧
      (0x0003 : Word) ≠ State.reset.pc + 2 := by decide

end Sys2Proof.Tests
end

section
/-! PROOFS. The boundary of the block (00_scope R7, R8): the invariant over the host's operations, the test bench's sets,
and code that the host writes before a step. -/

namespace Sys2Proof.Machine

variable {s t : State}

/-! ## The invariant -/

/-- Only a recorded stop needs an explanation. -/
theorem stopExplained_of_enabled (h : s.phase = .notReady ∨ s.phase = .ready) : stopExplained s = true := by
  rcases h with h | h <;> simp only [stopExplained, h]

/-- A stop is explained by the phase and `pc` alone. -/
theorem stopExplained_congr (hphase : t.phase = s.phase) (hpc : t.pc = s.pc) :
    stopExplained t = stopExplained s := by
  simp only [stopExplained, hphase, hpc]

theorem inv_of_enabled (h : s.phase = .notReady ∨ s.phase = .ready) (hwf : Memory.wf s.mem = true)
    (hbit : s.p.getLsbD 5 = false) : s.Inv :=
  ⟨hwf, hbit, stopExplained_of_enabled h⟩

/-- The stop that `step` makes on a byte with no handler is an explained one (R97). -/
theorem inv_fatalStop_unknown (hs : s.Inv) (hunknown : decodeOpcode (s.memRead s.pc) = none) :
    (fatalStop (.unknownOpcode s.pc (s.memRead s.pc)) s.passByte).Inv := by
  obtain ⟨hwf, hbit, -⟩ := hs
  exact ⟨hwf, hbit, by simp [stopExplained, fatalStop, hunknown]⟩

/-- A completed load of a `Ready` engine writes neither memory, nor the reserved bit, nor the phase (R78, R83). -/
theorem inv_load (hready : s.phase = .ready) (hs : s.Inv) (v : Byte) (n c : Nat) :
    ((loadA v (s.setPc (s.pc + BitVec.ofNat 16 n))).addCycles c).Inv := by
  obtain ⟨hwf, hbit, -⟩ := hs
  have effect := loadEffect_of_load s v n c
  exact inv_of_enabled (.inr (effect.phase.trans hready)) (effect.memory ▸ hwf)
    (effect.reservedBit.trans hbit)

theorem inv_setMem (hs : s.Inv) {m : Memory} (hwf : Memory.wf m = true) : (s.setMem m).Inv := by
  obtain ⟨-, hbit, hstop⟩ := hs
  exact ⟨hwf, hbit, (stopExplained_congr rfl rfl).trans hstop⟩

/-- A cleared `P` has its reserved bit 0 (R22, R25). -/
theorem clearFlags_reservedBit : clearFlags.getLsbD 5 = false := by decide

theorem inv_powerOn (session : Nat) : (State.powerOn session).Inv :=
  inv_of_enabled (.inl rfl) rfl clearFlags_reservedBit

theorem inv_resetEngine (hs : s.Inv) : (resetEngine s).Inv :=
  inv_of_enabled (.inr rfl) hs.1 clearFlags_reservedBit

/-! ## The operations keep the invariant -/

theorem inv_unlessHalted (hs : s.Inv) {reply : Reply} (hreply : reply.state.Inv) :
    (unlessHalted s reply).state.Inv := by
  rcases unlessHalted_cases s reply with ⟨-, e⟩ | ⟨-, e⟩ <;> rw [e]
  · exact hs
  · exact hreply

theorem inv_hostStep (hs : s.Inv) : (hostOp .step s).state.Inv := by
  rcases hostOp_step_cases s with ⟨r, -, -, e⟩ | ⟨i, v, c, hready, -, -, -, -, e⟩ | ⟨-, hunknown, -, e⟩ <;>
    rw [e]
  · exact hs
  · exact inv_load hready hs v i.length c
  · exact inv_fatalStop_unknown hs hunknown

theorem inv_hostLoadImage (hs : s.Inv) (bytes : List Byte) : (hostOp (.loadImage bytes) s).state.Inv := by
  rw [hostOp_loadImage]
  split
  case isTrue hfit => exact inv_unlessHalted hs (inv_setMem hs (Memory.wf_place bytes hs.1 hfit))
  case isFalse => exact hs

theorem inv_hostWrite (hs : s.Inv) (addr : Word) (v : Byte) : (hostOp (.write addr v) s).state.Inv := by
  rw [hostOp_write]
  split
  case isTrue => exact hs
  case isFalse =>
    exact inv_unlessHalted hs (inv_setMem hs (Memory.wf_put hs.1 v (Memory.toNat_lt_memSize addr)))

/-- A set that keeps the phase, memory and the reserved bit keeps the invariant: it happens in `Ready` only. -/
theorem inv_benchSet (hs : s.Inv) (hphase : t.phase = s.phase) (hmem : t.mem = s.mem)
    (hbit : t.p.getLsbD 5 = s.p.getLsbD 5) : (benchSet t s).state.Inv := by
  have ⟨hwf, hreserved, _⟩ := hs
  rcases benchSet_cases t s with ⟨hready, e⟩ | ⟨-, r, e⟩ <;> rw [e]
  · exact inv_of_enabled (.inr (hphase.trans hready)) (hmem ▸ hwf) (hbit.trans hreserved)
  · exact hs

/-- Settles O53: each operation keeps the invariant by its own lemma. -/
theorem hostOperationsKeepTheInvariant : Obligations.HostOperationsKeepTheInvariant := by
  intro op s hs
  cases op with
  | powerOn session => exact inv_powerOn session
  | loadImage bytes => exact inv_hostLoadImage hs bytes
  | read addr => rw [hostOp_read]; exact hs
  | write addr v => exact inv_hostWrite hs addr v
  | reset => exact inv_unlessHalted hs (inv_resetEngine hs)
  | step => exact inv_hostStep hs
  | contextQuery => exact hs
  | setReg r v => exact inv_benchSet hs (setReg_phase s r v) (setReg_mem s r v) (by rw [setReg_p])
  | setPc w => exact inv_benchSet hs rfl rfl rfl
  | setFlag f b => exact inv_benchSet hs rfl rfl (setFlag_reservedBit s.p f b)

/-- Settles O51: after reset memory is empty, `P` is 0 and the phase is `Ready`. -/
theorem resetStateMeetsTheInvariant : Obligations.ResetStateMeetsTheInvariant :=
  ⟨rfl, inv_of_enabled (.inr rfl) reset_memory_wf clearFlags_reservedBit⟩

/-! ## Code written by the host -/

/-- A write below the read-only region, unless `Halted`, stores its byte and changes nothing else (R37). -/
theorem hostOp_write_state {addr : Word} (haddr : addr.toNat < 0x8000) (v : Byte)
    (hs : s.phase = .notReady ∨ s.phase = .ready) :
    (hostOp (.write addr v) s).state = s.setMem (Memory.put s.mem addr.toNat v) := by
  rw [hostOp_write, if_neg (Nat.not_le.mpr haddr), unlessHalted_enabled hs, ran]

/-- The step of a `Ready` engine with LDA Immediate at `pc` (R86). -/
theorem hostOp_step_ldaImm {v : Byte} (h : s.InstrAt [0xA9, v]) (hs : s.phase = .ready) :
    hostOp .step s = ran "step" (.cycles 2) ((loadA v s.passByte.passByte).addCycles 2) := by
  have hexec : step s = .next ((loadA v s.passByte.passByte).addCycles 2) := by
    rw [step_of_ready hs, stepReady_of_instrAt (i := .ldaImm v) h, exec_ldaImm]
  rw [hostOp_step_ready hexec hs]
  simp [loadA]

/-- Two bytes stored one after the other at `pc` stand there as an instruction (R48). -/
theorem instrAt_of_put_put (hwf : Memory.wf s.mem = true) (b v : Byte) :
    let s₁ := s.setMem (Memory.put s.mem s.pc.toNat b)
    (s₁.setMem (Memory.put s₁.mem (s.pc + 1).toNat v)).InstrAt [b, v] := by
  intro s₁
  have hwf₁ : Memory.wf s₁.mem = true := Memory.wf_put hwf b (Memory.toNat_lt_memSize s.pc)
  have hne : s.pc ≠ s.pc + 1 := by bv_omega
  show [State.memRead _ s.pc, State.memRead _ (s.pc + 1)] = [b, v]
  rw [memRead_put hwf₁, memRead_put hwf₁, if_neg hne, if_pos rfl, memRead_put hwf, if_pos rfl]

/-- Settles O33: both writes store, so LDA Immediate stands at `pc` when the step fetches. -/
theorem codeWrittenByTheHostIsFetched : Obligations.CodeWrittenByTheHostIsFetched := by
  rintro s v ⟨hready, hwf, -, -⟩ hpc
  have hnext : (s.pc + 1).toNat < 0x8000 := by bv_omega
  have hfirst := hostOp_write_state (by omega : s.pc.toNat < 0x8000) 0xA9 (.inr hready)
  have hsecond := hostOp_write_state (s := s.setMem (Memory.put s.mem s.pc.toNat 0xA9)) hnext v (.inr hready)
  dsimp only
  rw [hfirst, hsecond, hostOp_step_ldaImm (instrAt_of_put_put hwf 0xA9 v) hready]
  exact ⟨rfl, rfl⟩

/-! ## The test bench -/

theorem benchSet_ready (hs : s.phase = .ready) (t : State) : benchSet t s = ran "test_bench" .done t := by
  simp only [benchSet, hs]

theorem benchSet_refused (hs : s.phase ≠ .ready) (t : State) : ∃ q, benchSet t s = refuse q s := by
  rcases benchSet_cases t s with ⟨hready, -⟩ | ⟨-, e⟩
  · exact absurd hready hs
  · exact e

/-- Settles O50: a set reads back in `Ready`, and is refused in the other phases. -/
theorem testBenchSetsOnlyAReadyEngine : Obligations.TestBenchSetsOnlyAReadyEngine := by
  intro s r v w f b
  constructor
  · intro hready
    simp only [hostOp, benchSet_ready hready, ran]
    exact ⟨by rw [reg_setReg, if_pos rfl], rfl, getFlag_setFlag_same s.p f b⟩
  · intro hs op hop
    simp only [List.mem_cons, List.not_mem_nil, or_false] at hop
    rcases hop with rfl | rfl | rfl <;> exact benchSet_refused hs _

end Sys2Proof.Machine
end

section
/-! PROOFS. The state of the block (10_state R13 to R33): what every step and every run keeps, what a step reads, the
register file and the Status Register, canonical memory, and the lifecycle latch and cycle counter over the host's
operations. -/

namespace Sys2Proof.Machine

variable {s t : State}

/-! ## What a step can do -/

/-- The step of a `Ready` engine with the instruction `i` at `pc`: a load that leaves `pc` after `i`. -/
theorem step_of_instrAt {i : Instr} (hs : s.phase = .ready) (hi : s.bytesFrom s.pc i.length = encode i) :
    ∃ v c, step s = .next ((loadA v (s.setPc (s.pc + BitVec.ofNat 16 i.length))).addCycles c) := by
  obtain ⟨v, c, -, -, e⟩ := exec_shape i s.passByte
  have hpc : s.pc + 1 + BitVec.ofNat 16 i.operands.length = s.pc + BitVec.ofNat 16 i.length := by
    rw [← operands_length, BitVec.ofNat_add, BitVec.add_assoc, BitVec.add_comm 1]
    rfl
  refine ⟨v, c, ?_⟩
  rw [step_of_ready hs, stepReady_of_instrAt hi, e, passByte_pc, hpc]
  rfl

/-- Everything a step that answers a next state did: it ran in `Ready`, and completed the instruction at `pc`, a load, or
stopped on an unknown opcode. -/
theorem step_next_cases (h : step s = .next t) : s.phase = .ready ∧
    ((∃ i v c, s.bytesFrom s.pc i.length = encode i ∧ 2 ≤ c ∧ c ≤ 6 ∧
        t = (loadA v (s.setPc (s.pc + BitVec.ofNat 16 i.length))).addCycles c) ∨
      (decodeOpcode (s.memRead s.pc) = none ∧
        t = fatalStop (.unknownOpcode s.pc (s.memRead s.pc)) s.passByte)) := by
  rcases hostOp_step_cases s with ⟨r, e, -⟩ | ⟨i, v, c, hs, hlow, hhigh, hi, e, -⟩ | ⟨hs, hunknown, e, -⟩ <;>
    rw [e] at h <;> cases h
  · exact ⟨hs, .inl ⟨i, v, c, hi, hlow, hhigh, rfl⟩⟩
  · exact ⟨hs, .inr ⟨hunknown, rfl⟩⟩

/-- Settles O52: a load and a stop each keep the invariant. -/
theorem stepKeepsTheInvariant : Obligations.StepKeepsTheInvariant := by
  intro s t hinv h
  obtain ⟨hs, ⟨i, v, c, -, -, -, rfl⟩ | ⟨hunknown, rfl⟩⟩ := step_next_cases h
  · exact inv_load hs hinv v i.length c
  · exact inv_fatalStop_unknown hinv hunknown

/-! ## What every run keeps -/

/-- The part of the state that no step writes (R15, R16, R17, R24, R25, R39). -/
structure SameFrame (s t : State) : Prop where
  memory : t.mem = s.mem
  indexX : t.x = s.x
  indexY : t.y = s.y
  stackPointer : t.sp = s.sp
  inertFlags : ∀ f, f ≠ .zero → f ≠ .negative → t.flag f = s.flag f
  reservedBit : t.p.getLsbD 5 = s.p.getLsbD 5

theorem SameFrame.refl (s : State) : SameFrame s s := ⟨rfl, rfl, rfl, rfl, fun _ _ _ => rfl, rfl⟩

theorem SameFrame.trans {u : State} (hst : SameFrame s t) (htu : SameFrame t u) : SameFrame s u where
  memory := htu.memory.trans hst.memory
  indexX := htu.indexX.trans hst.indexX
  indexY := htu.indexY.trans hst.indexY
  stackPointer := htu.stackPointer.trans hst.stackPointer
  inertFlags f hz hn := (htu.inertFlags f hz hn).trans (hst.inertFlags f hz hn)
  reservedBit := htu.reservedBit.trans hst.reservedBit

/-- A memory that is the same data reads the same everywhere. -/
theorem SameFrame.everyByte (h : SameFrame s t) (addr : Word) : t.memRead addr = s.memRead addr := by
  rw [State.memRead, State.memRead, h.memory]

theorem sameFrame_of_loadEffect {v : Byte} {n c : Nat} (effect : LoadEffect s t v n c) : SameFrame s t :=
  ⟨effect.memory, effect.indexX, effect.indexY, effect.stackPointer, effect.otherFlags, effect.reservedBit⟩

/-- A fatal stop writes the phase only, and the fetch before it `pc` only (R97, R99). -/
theorem sameFrame_fatalStop_passByte (cause : Fault) (s : State) : SameFrame s (fatalStop cause s.passByte) :=
  ⟨rfl, rfl, rfl, rfl, fun _ _ _ => rfl, rfl⟩

theorem sameFrame_of_step (h : step s = .next t) : SameFrame s t := by
  obtain ⟨-, ⟨i, v, c, -, -, -, rfl⟩ | ⟨-, rfl⟩⟩ := step_next_cases h
  · exact sameFrame_of_loadEffect (loadEffect_of_load s v i.length c)
  · exact sameFrame_fatalStop_passByte _ s

/-- A run of one step more is a step, and the run from where it ends. -/
theorem run_succ_next {n : Nat} (h : core.run (n + 1) s = .next t) :
    ∃ u, step s = .next u ∧ core.run n u = .next t := by
  simp only [Host.Core.run] at h
  split at h
  case h_1 u hu => exact ⟨u, hu, h⟩
  case h_2 => cases h
  case h_3 => cases h

/-- What is reflexive, transitive and true of every step is true of every run. -/
theorem run_induction {R : State → State → Prop} (hrefl : ∀ s, R s s)
    (htrans : ∀ {s t u}, R s t → R t u → R s u) (hstep : ∀ {s t}, step s = .next t → R s t) :
    ∀ (n : Nat) {s t : State}, core.run n s = .next t → R s t := by
  intro n
  induction n with
  | zero => intro s t h; cases h; exact hrefl s
  | succ n ih =>
    intro s t h
    obtain ⟨u, hfirst, hrest⟩ := run_succ_next h
    exact htrans (hstep hfirst) (ih hrest)

/-- Settles O54: every step keeps the frame, so every run does. -/
theorem runsNeverChangeMemoryOrIndexRegisters : Obligations.RunsNeverChangeMemoryOrIndexRegisters := by
  intro n s t h
  have frame : SameFrame s t := run_induction SameFrame.refl SameFrame.trans sameFrame_of_step n h
  exact ⟨frame.memory, frame.everyByte, frame.indexX, frame.indexY, frame.stackPointer, frame.inertFlags,
    frame.reservedBit⟩

/-! ## The program counter -/

/-- Advancing an address modulo 65536, as natural-number arithmetic (R20). -/
theorem add_ofNat_eq (w : Word) (n : Nat) : w + BitVec.ofNat 16 n = BitVec.ofNat 16 (w.toNat + n) := by
  rw [BitVec.ofNat_add, BitVec.ofNat_toNat, BitVec.setWidth_eq]

/-- An instruction has one operand byte or two (R51). -/
theorem instr_length_two_or_three (i : Instr) : i.length = 2 ∨ i.length = 3 := by
  have hformat : ∀ f : Format, f.length = 2 ∨ f.length = 3 := fun
    | .opD8 => .inl rfl
    | .opA16 => .inr rfl
  exact hformat i.mode.format

/-- Settles O13: the instruction at `pc` is a load that leaves `pc` after it. -/
theorem pcAdvancesByTheInstructionLength : Obligations.PcAdvancesByTheInstructionLength := by
  intro s i rest hs hdecode
  obtain ⟨v, c, e⟩ := step_of_instrAt hs (instrAt_of_decode hdecode)
  refine ⟨instr_length_two_or_three i, _, e, ?_⟩
  rw [(loadEffect_of_load s v i.length c).pc, add_ofNat_eq, BitVec.toNat_ofNat]

/-- Settles O38: each fetch reads at `pc` and passes one byte. -/
theorem fetchReadsAtPcAndAdvancesIt : Obligations.FetchReadsAtPcAndAdvancesIt := by
  intro s
  have hone : s.passByte.pc = BitVec.ofNat 16 (s.pc.toNat + 1) := add_ofNat_eq s.pc 1
  have htwo : s.passWord = s.setPc (BitVec.ofNat 16 (s.pc.toNat + 2)) := by
    rw [passWord_eq, add_ofNat_eq]
  have hword : (fetchWord s).1 = word (s.memRead s.passByte.pc) (s.memRead s.pc) := rfl
  exact ⟨rfl, congrArg s.setPc hone, by rw [hword, word_toNat, hone], htwo⟩

/-! ## What a step reads -/

/-- The two states agree on all that a step reads: the phase, `pc`, `X`, `Y` and memory. -/
structure SameInputs (s t : State) : Prop where
  phase : t.phase = s.phase
  pc : t.pc = s.pc
  indexX : t.x = s.x
  indexY : t.y = s.y
  memory : t.mem = s.mem

theorem SameInputs.memRead (h : SameInputs s t) (addr : Word) : t.memRead addr = s.memRead addr := by
  rw [State.memRead, State.memRead, h.memory]

theorem SameInputs.passByte (h : SameInputs s t) : SameInputs s.passByte t.passByte :=
  ⟨h.phase, congrArg (· + 1) h.pc, h.indexX, h.indexY, h.memory⟩

/-- The byte an instruction loads and the cycles it takes are told by `X`, `Y` and memory (R82, R86 to R93). -/
theorem SameInputs.exec_load (h : SameInputs s t) (i : Instr) : ∃ v n c,
    exec i s = .next ((loadA v (s.setPc (s.pc + BitVec.ofNat 16 n))).addCycles c) ∧
    exec i t = .next ((loadA v (t.setPc (s.pc + BitVec.ofNat 16 n))).addCycles c) := by
  rw [← h.pc]
  cases i <;>
    simp only [exec_ldaImm, exec_ldaZp, exec_ldaZpX, exec_ldaAbs, exec_ldaAbsX, exec_ldaAbsY, exec_ldaIndX,
      exec_ldaIndY, passByte_eq, passWord_eq, readWordZP_eq, h.memRead, h.indexX, h.indexY, h.pc] <;>
    exact ⟨_, _, _, rfl, rfl⟩

/-- Two `Ready` engines that agree on what a step reads load the same byte in the same number of cycles, or stop on the
same unknown opcode. -/
theorem SameInputs.step_next (h : SameInputs s t) (hs : s.phase = .ready) :
    (∃ v w c, step s = .next ((loadA v (s.setPc w)).addCycles c) ∧
      step t = .next ((loadA v (t.setPc w)).addCycles c)) ∨
    (∃ cause w, step s = .next (fatalStop cause (s.setPc w)) ∧ step t = .next (fatalStop cause (t.setPc w))) := by
  have hop : t.memRead t.pc = s.memRead s.pc := by rw [h.pc, h.memRead]
  rw [step_of_ready hs, step_of_ready (h.phase.trans hs)]
  rcases instrAt_or_unknown s with ⟨i, hi⟩ | hunknown
  · left
    have hi' : t.bytesFrom t.pc i.length = encode i := by rw [h.pc, bytesFrom_congr h.memory, hi]
    obtain ⟨v, n, c, e, e'⟩ := h.passByte.exec_load i
    rw [stepReady_of_instrAt hi, stepReady_of_instrAt hi']
    exact ⟨v, _, c, e, e'⟩
  · right
    rw [stepReady_unknown hunknown, stepReady_unknown (hop ▸ hunknown), hop, passByte_eq, passByte_eq, h.pc]
    exact ⟨_, _, rfl, rfl⟩

/-! ## Flags -/

/-- The flag at a bit position, where it has one (R21). -/
theorem flag_ofBit_bit (f : Flag) : Flag.ofBit f.bit = some f := by cases f <;> rfl

/-- Settles O25: the table both ways, row by row. -/
theorem flagTableIsExhaustiveAndSkipsBitFive : Obligations.FlagTableIsExhaustiveAndSkipsBitFive :=
  ⟨rfl, rfl, rfl, rfl, rfl, rfl, rfl, flag_ofBit_bit, by decide⟩

/-- Setting a flag to the value it has changes nothing. -/
theorem setFlag_getFlag (p : Byte) (f : Flag) : setFlag p f (getFlag p f) = p := by
  refine BitVec.eq_of_getLsbD_eq fun n hn => ?_
  rw [setFlag_getLsbD _ _ _ _ hn]
  split
  case isTrue h => rw [h, getFlag_eq_getLsbD]
  case isFalse => rfl

/-- Sets of different flags commute (R22). -/
theorem setFlag_comm (p : Byte) {f g : Flag} (h : f ≠ g) (b c : Bool) :
    setFlag (setFlag p f b) g c = setFlag (setFlag p g c) f b := by
  refine BitVec.eq_of_getLsbD_eq fun n hn => ?_
  simp only [setFlag_getLsbD _ _ _ _ hn]
  by_cases hf : n = f.bit
  · have hg : n ≠ g.bit := fun e => h (flag_bit_injective (hf.symm.trans e))
    rw [if_neg hg, if_pos hf, if_pos hf]
  · rw [if_neg hf, if_neg hf]

/-- Setting a flag adds its bit to the value of the register with the flag cleared: the cleared register and the shifted
bit have no bit in common. -/
theorem setFlag_toNat (p : Byte) (f : Flag) (b : Bool) :
    (setFlag p f b).toNat = (setFlag p f false).toNat + b.toNat * 2 ^ f.bit := by
  cases b with
  | false => simp
  | true =>
    have hdisjoint : (p &&& ~~~((1 : Byte) <<< f.bit)) &&& ((1 : Byte) <<< f.bit) = 0#8 := by
      rw [BitVec.and_assoc, BitVec.not_and_self]
      exact BitVec.and_zero
    have hcleared : setFlag p f false = p &&& ~~~((1 : Byte) <<< f.bit) := by simp [setFlag]
    have hset : setFlag p f true = setFlag p f false + (1 : Byte) <<< f.bit := by
      rw [hcleared, BitVec.add_eq_or_of_and_eq_zero _ _ hdisjoint]
      rfl
    have hbit : ((1 : Byte) <<< f.bit).toNat = 2 ^ f.bit := by cases f <;> rfl
    rw [hset, hcleared, BitVec.toNat_add_of_and_eq_zero hdisjoint, hbit, Bool.toNat_true, Nat.one_mul]

/-- The value of the register is that with the flag cleared and the flag's bit, so `set` exchanges the one bit (R22). -/
theorem setFlag_toNat_eq (p : Byte) (f : Flag) (b : Bool) : (setFlag p f b).toNat =
    p.toNat - (getFlag p f).toNat * 2 ^ f.bit + b.toNat * 2 ^ f.bit := by
  have hp := setFlag_toNat p f (getFlag p f)
  rw [setFlag_getFlag] at hp
  rw [hp, Nat.add_sub_cancel, ← setFlag_toNat]

/-- Settles O26: every bit after `set`, and the value they make. -/
theorem setFlagChangesExactlyItsBit : Obligations.SetFlagChangesExactlyItsBit :=
  ⟨fun p f b => ⟨getFlag_setFlag_same p f b,
    fun n hn hne => by rw [setFlag_getLsbD _ _ _ _ hn, if_neg hne], setFlag_toNat_eq p f b⟩,
    fun _ => BitVec.getLsbD_zero⟩

/-- A load neither reads nor writes an inert flag (R24, R82). -/
theorem loadA_setFlag {f : Flag} (hz : f ≠ .zero) (hn : f ≠ .negative) (v : Byte) (s : State) (b : Bool) :
    loadA v (s.setFlag f b) = (loadA v s).setFlag f b := by
  have hflags : loadFlags (setFlag s.p f b) v = setFlag (loadFlags s.p v) f b := by
    rw [loadFlags, loadFlags, setFlag_comm _ hz, setFlag_comm _ hn]
  exact congrArg (fun p => { s with a := v, p := p }) hflags

/-- Settles O27: no step reads `P`, and a load sets only Z and N of it. -/
theorem inertFlagsHaveNoEffectOnAStep : Obligations.InertFlagsHaveNoEffectOnAStep := by
  intro s f b hz hn hs
  have same : SameInputs s (s.setFlag f b) := ⟨rfl, rfl, rfl, rfl, rfl⟩
  rcases same.step_next hs with ⟨v, w, c, e, e'⟩ | ⟨cause, w, e, e'⟩ <;>
    refine ⟨_, e, (sameFrame_of_step e).inertFlags f hz hn, e'.trans ?_⟩
  · exact congrArg (fun u : State => Host.Outcome.next (u.addCycles c)) (loadA_setFlag hz hn v (s.setPc w) b)
  · rfl

/-! ## Registers -/

/-- Settles O39: one cell per register, and `pc` beside them. -/
theorem registersAreIndependentCells : Obligations.RegistersAreIndependentCells :=
  fun s r q v w => ⟨reg_setReg s r q v, setReg_pc s r v, setPc_pc s w, by cases q <;> rfl, setReg_p s r v,
    setReg_mem s r v⟩

theorem stackAddress_toNat (s : State) : s.stackAddress.toNat = 0x0100 + s.sp.toNat := by
  have hsp := s.sp.isLt
  have hbase : Config.stackBase.toNat = 0x0100 := rfl
  rw [State.stackAddress, BitVec.toNat_add, hbase, zext16_toNat]
  omega

/-- Settles O40: no step reads or writes `SP`. -/
theorem stackPointerIsInert : Obligations.StackPointerIsInert := by
  refine fun s v => ⟨stackAddress_toNat s, fun hs => ?_⟩
  have same : SameInputs s (s.setReg .SP v) := ⟨rfl, rfl, rfl, rfl, rfl⟩
  rcases same.step_next hs with ⟨u, w, c, e, e'⟩ | ⟨cause, w, e, e'⟩ <;>
    exact ⟨_, e, (sameFrame_of_step e).stackPointer, e'⟩

/-! ## Canonical memory -/

namespace Memory

/-- The first cell of a canonical memory is where it says, within the space, and is not the fill value. -/
theorem wfFrom_cons {low k : Nat} {v : Byte} {cells : Memory} (h : wfFrom low ((k, v) :: cells) = true) :
    low ≤ k ∧ k < 65536 ∧ v ≠ Config.memoryFill ∧ wfFrom (k + 1) cells = true := by
  simp only [wfFrom, Bool.and_eq_true, decide_eq_true_eq] at h
  obtain ⟨⟨⟨hlow, hmax⟩, hfill⟩, hcells⟩ := h
  exact ⟨hlow, hmax, hfill, hcells⟩

theorem lookup_head (k : Nat) (v : Byte) (cells : Memory) : lookup ((k, v) :: cells) k = v := if_pos rfl

theorem lookup_tail {n k : Nat} (h : n ≠ k) (v : Byte) (cells : Memory) :
    lookup ((k, v) :: cells) n = lookup cells n := if_neg h

/-- A canonical memory that reads as another does at that one's first listed address starts no later. -/
theorem head_le_of_lookup_eq {low₁ low₂ k₁ k₂ : Nat} {v₁ v₂ : Byte} {cells₁ cells₂ : Memory}
    (h₁ : wfFrom low₁ ((k₁, v₁) :: cells₁) = true) (h₂ : wfFrom low₂ ((k₂, v₂) :: cells₂) = true)
    (heq : lookup ((k₁, v₁) :: cells₁) k₁ = lookup ((k₂, v₂) :: cells₂) k₁) : k₂ ≤ k₁ := by
  obtain ⟨-, -, hfill, -⟩ := wfFrom_cons h₁
  obtain ⟨-, -, -, hcells⟩ := wfFrom_cons h₂
  by_contra hlt
  rw [lookup_head, lookup_tail (by omega), lookup_below hcells (by omega)] at heq
  exact hfill heq

/-- A memory that reads as the fill value everywhere lists no cell, if it is canonical. -/
theorem eq_nil_of_lookup_fill {low : Nat} {m : Memory} (hwf : wfFrom low m = true)
    (hread : ∀ n, n < 65536 → lookup m n = Config.memoryFill) : m = [] := by
  cases m with
  | nil => rfl
  | cons cell cells =>
    obtain ⟨-, hmax, hfill, -⟩ := wfFrom_cons hwf
    exact absurd ((lookup_head _ _ cells).symm.trans (hread _ hmax)) hfill

/-- Canonical memories that read alike are the same list: they start with the same cell, and the rest reads alike. -/
theorem eq_of_lookup_eq (m₁ : Memory) : ∀ {m₂ : Memory} {low : Nat}, wfFrom low m₁ = true →
    wfFrom low m₂ = true → (∀ n, n < 65536 → lookup m₁ n = lookup m₂ n) → m₁ = m₂ := by
  induction m₁ with
  | nil => exact fun _ h₂ hread => (eq_nil_of_lookup_fill h₂ fun n hn => (hread n hn).symm).symm
  | cons cell₁ cells₁ ih =>
    intro m₂ low h₁ h₂ hread
    cases m₂ with
    | nil => exact eq_nil_of_lookup_fill h₁ hread
    | cons cell₂ cells₂ =>
      obtain ⟨k₁, v₁⟩ := cell₁
      obtain ⟨k₂, v₂⟩ := cell₂
      obtain ⟨-, hmax₁, -, hcells₁⟩ := wfFrom_cons h₁
      obtain ⟨-, hmax₂, -, hcells₂⟩ := wfFrom_cons h₂
      obtain rfl : k₁ = k₂ := Nat.le_antisymm
        (head_le_of_lookup_eq h₂ h₁ (hread k₂ hmax₂).symm) (head_le_of_lookup_eq h₁ h₂ (hread k₁ hmax₁))
      obtain rfl : v₁ = v₂ := by simpa only [lookup_head] using hread k₁ hmax₁
      have htail : ∀ n, n < 65536 → lookup cells₁ n = lookup cells₂ n := by
        intro n hn
        by_cases hk : n = k₁
        · rw [lookup_below hcells₁ (by omega), lookup_below hcells₂ (by omega)]
        · simpa only [lookup_tail hk] using hread n hn
      rw [ih hcells₁ hcells₂ htail]

end Memory

/-- Settles O32: canonical memories are extensional. -/
theorem canonicalMemoriesThatReadAlikeAreEqual : Obligations.CanonicalMemoriesThatReadAlikeAreEqual :=
  fun m₁ _ h₁ h₂ hread => Memory.eq_of_lookup_eq m₁ h₁ h₂ hread

/-! ## Power-on and reset -/

/-- Settles O41: where it is enabled, `reset` is `resetEngine`. -/
theorem resetLeavesTheStatedValues : Obligations.ResetLeavesTheStatedValues := by
  intro s hs
  dsimp only
  rw [hostOp_reset_enabled hs]
  exact ⟨rfl, word_toNat _ _, rfl, rfl, rfl, rfl, rfl, rfl, rfl, rfl⟩

/-- Settles O42: `State.powerOn` has no memory cell, `P` 0 and phase `NotReady`. -/
theorem powerOnZeroesMemoryAndStatus : Obligations.PowerOnZeroesMemoryAndStatus :=
  fun _ _ => ⟨fun _ => rfl, rfl, rfl, rfl, rfl⟩

/-- Settles O43: `reset` overwrites every register that power-on leaves free, and the vector is zero. -/
theorem resetStateIsResetAfterPowerOn : Obligations.ResetStateIsResetAfterPowerOn := by
  intro session
  have hvector : word Config.memoryFill Config.memoryFill = 0x0000 := by decide
  rw [hostOp_reset_enabled (.inl rfl)]
  show { State.reset with pc := word Config.memoryFill Config.memoryFill } = State.reset
  rw [hvector]
  rfl

/-! ## The lifecycle latch and the cycle counter -/

/-- A store that is refused in `Halted` changes memory or nothing. -/
theorem unlessHalted_setMem (s : State) (operation : String) (r : Response) (m : Memory) :
    ∃ m', (unlessHalted s (ran operation r (s.setMem m))).state = s.setMem m' := by
  rcases unlessHalted_cases s (ran operation r (s.setMem m)) with ⟨-, e⟩ | ⟨-, e⟩ <;> rw [e]
  · exact ⟨s.mem, rfl⟩
  · exact ⟨m, rfl⟩

theorem hostOp_loadImage_setMem (bytes : List Byte) (s : State) :
    ∃ m, (hostOp (.loadImage bytes) s).state = s.setMem m := by
  rw [hostOp_loadImage]
  split
  case isTrue => exact unlessHalted_setMem s _ _ _
  case isFalse => exact ⟨s.mem, rfl⟩

theorem hostOp_write_setMem (addr : Word) (v : Byte) (s : State) :
    ∃ m, (hostOp (.write addr v) s).state = s.setMem m := by
  rw [hostOp_write]
  split
  case isTrue => exact ⟨s.mem, rfl⟩
  case isFalse => exact unlessHalted_setMem s _ _ _

/-- A test-bench set keeps what its target state and the state before it share. -/
theorem benchSet_keeps (hphase : t.phase = s.phase) (hcycles : t.cycles = s.cycles) :
    (benchSet t s).state.phase = s.phase ∧ (benchSet t s).state.cycles = s.cycles := by
  rcases benchSet_cases t s with ⟨-, e⟩ | ⟨-, r, e⟩ <;> rw [e]
  · exact ⟨hphase, hcycles⟩
  · exact ⟨rfl, rfl⟩

/-- Only power-on, `reset` and `step` move the latch or the counter (R28, R29). -/
theorem hostOp_keeps_phase_and_cycles (op : HostOp) (s : State) (hpower : ∀ session, op ≠ .powerOn session)
    (hreset : op ≠ .reset) (hstep : op ≠ .step) :
    (hostOp op s).state.phase = s.phase ∧ (hostOp op s).state.cycles = s.cycles := by
  cases op with
  | powerOn session => exact absurd rfl (hpower session)
  | reset => exact absurd rfl hreset
  | step => exact absurd rfl hstep
  | loadImage bytes => obtain ⟨m, e⟩ := hostOp_loadImage_setMem bytes s; rw [e]; exact ⟨rfl, rfl⟩
  | write addr v => obtain ⟨m, e⟩ := hostOp_write_setMem addr v s; rw [e]; exact ⟨rfl, rfl⟩
  | read addr => rw [hostOp_read]; exact ⟨rfl, rfl⟩
  | contextQuery => exact ⟨rfl, rfl⟩
  | setReg r v => exact benchSet_keeps (setReg_phase s r v) (setReg_cycles s r v)
  | setPc w => exact benchSet_keeps rfl rfl
  | setFlag f b => exact benchSet_keeps rfl rfl

theorem hostOp_reset_phase (s : State) :
    (∃ cause, s.phase = .halted cause ∧ (hostOp .reset s).state.phase = .halted cause) ∨
      ((s.phase = .notReady ∨ s.phase = .ready) ∧ (hostOp .reset s).state.phase = .ready) := by
  rcases unlessHalted_cases s (ran "reset" .done (resetEngine s)) with ⟨⟨cause, hs⟩, -⟩ | ⟨hs, -⟩
  · exact .inl ⟨cause, hs, by rw [hostOp_reset_halted hs]; exact hs⟩
  · exact .inr ⟨hs, by rw [hostOp_reset_enabled hs]; rfl⟩

theorem hostOp_step_phase (s : State) : (hostOp .step s).state.phase = s.phase ∨
    (s.phase = .ready ∧ ∃ cause, (hostOp .step s).state.phase = .halted cause ∧
      (hostOp .step s).response = .fatal cause) := by
  rcases hostOp_step_cases s with ⟨r, -, -, e⟩ | ⟨i, v, c, -, -, -, -, -, e⟩ | ⟨hs, -, -, e⟩ <;> rw [e]
  · exact .inl rfl
  · exact .inl (loadEffect_of_load s v i.length c).phase
  · exact .inr ⟨hs, _, rfl, rfl⟩

/-- Settles O44: power-on, `reset` and `step` by their own lemmas, and the others keep the latch. -/
theorem phaseMovesOnlyAsTheRuleSays : Obligations.PhaseMovesOnlyAsTheRuleSays := by
  intro op s
  cases op with
  | powerOn session => rfl
  | reset => exact hostOp_reset_phase s
  | step => exact hostOp_step_phase s
  | _ => exact (hostOp_keeps_phase_and_cycles _ s (by simp) (by simp) (by simp)).1

theorem hostOp_reset_cycles (s : State) :
    ((s.phase = .notReady ∨ s.phase = .ready) → (hostOp .reset s).state.cycles = 0) ∧
      ∀ cause, s.phase = .halted cause → (hostOp .reset s).state.cycles = s.cycles :=
  ⟨fun hs => by rw [hostOp_reset_enabled hs]; rfl, fun _ hs => by rw [hostOp_reset_halted hs]; rfl⟩

theorem hostOp_step_cycles (s : State) :
    (∀ c, (hostOp .step s).response = .cycles c → (hostOp .step s).state.cycles = s.cycles + c) ∧
      ∀ cause, (hostOp .step s).response = .fatal cause → (hostOp .step s).state.cycles = s.cycles := by
  rcases hostOp_step_cases s with ⟨r, -, -, e⟩ | ⟨i, v, c, -, -, -, -, -, e⟩ | ⟨-, -, -, e⟩ <;> rw [e]
  · exact ⟨nofun, nofun⟩
  · exact ⟨fun _ h => by cases h; exact (loadEffect_of_load s v i.length c).cycles, nofun⟩
  · exact ⟨nofun, fun _ _ => rfl⟩

/-- Settles O46: power-on, `reset` and `step` by their own lemmas, and the others keep the counter. -/
theorem cyclesSumWhatStepsReturn : Obligations.CyclesSumWhatStepsReturn := by
  intro op s
  cases op with
  | powerOn session => rfl
  | reset => exact hostOp_reset_cycles s
  | step => exact hostOp_step_cycles s
  | _ => exact (hostOp_keeps_phase_and_cycles _ s (by simp) (by simp) (by simp)).2

/-! ## The halted engine -/

/-- A `Halted` engine's registers can still be read (R100, R108). -/
theorem context_of_halted {cause : Fault} (hs : s.phase = .halted cause) : s.context =
    { sp := some s.sp, pc := some s.pc, a := some s.a, x := some s.x, y := some s.y, p := s.p } := by
  simp only [State.context, hs]

theorem unlessHalted_state_halted {cause : Fault} (hs : s.phase = .halted cause) (reply : Reply) :
    (unlessHalted s reply).state = s := by
  rw [unlessHalted_halted hs, refuse]

theorem benchSet_state_halted {cause : Fault} (hs : s.phase = .halted cause) (t : State) :
    (benchSet t s).state = s := by
  obtain ⟨r, e⟩ := benchSet_refused (s := s) (by simp [hs]) t
  rw [e, refuse]

/-- Only power-on changes anything of a `Halted` engine (R100). -/
theorem hostOp_state_halted {cause : Fault} (hs : s.phase = .halted cause) (op : HostOp)
    (hpower : ∀ session, op ≠ .powerOn session) : (hostOp op s).state = s := by
  cases op with
  | powerOn session => exact absurd rfl (hpower session)
  | loadImage bytes =>
    rw [hostOp_loadImage]
    split
    case isTrue => exact unlessHalted_state_halted hs _
    case isFalse => rfl
  | read addr => rw [hostOp_read, ran]
  | write addr v =>
    rw [hostOp_write]
    split
    case isTrue => rfl
    case isFalse => exact unlessHalted_state_halted hs _
  | reset => rw [hostOp_reset_halted hs, refuse]
  | step => rw [hostOp_step_refused (step_of_halted hs), refuse]
  | contextQuery => rfl
  | setReg r v => exact benchSet_state_halted hs _
  | setPc w => exact benchSet_state_halted hs _
  | setFlag f b => exact benchSet_state_halted hs _

/-- Settles O45: `step` and `reset` are refused, the queries answer, and only power-on leaves the phase. -/
theorem haltedIsTerminal : Obligations.HaltedIsTerminal := by
  intro s cause hs
  refine ⟨hostOp_step_refused (step_of_halted hs), hostOp_reset_halted hs, fun addr => by rw [hostOp_read, ran],
    congrArg Response.context (context_of_halted hs), hostOp_state_halted hs, fun session => ?_⟩
  rw [hostOp_reset_enabled (.inl rfl)]
  rfl

end Sys2Proof.Machine
end

section
/-! PROOFS. The Memory Subsystem (20_memory R35 to R48): what `read`, `write` and `load_image` answer and leave, the
checked operations below it, the reads of a step, and an instruction placed where the engine fetches. -/

namespace Sys2Proof.Machine

variable {s : State}

/-! ## The reads of a step -/

/-- A step on an opcode byte with no handler reads that byte only (R97). -/
theorem stepReads_unknown (hs : s.phase = .ready) (hunknown : decodeOpcode (s.memRead s.pc) = none) :
    Reference.stepReads s = [s.pc] := by
  simp only [Reference.stepReads, hs, Reference.stepReady_unknown hunknown]

/-- A refused step reads nothing (R76). -/
theorem stepReads_of_not_ready (hs : s.phase ≠ .ready) : Reference.stepReads s = [] := by
  unfold Reference.stepReads
  split
  case h_1 hready => exact absurd hready hs
  case h_2 => rfl

/-- The step of a `Ready` engine reads the opcode byte, and then at most four bytes (R45, R79). -/
theorem stepReads_of_ready (hs : s.phase = .ready) :
    ∃ later, Reference.stepReads s = s.pc :: later ∧ later.length ≤ 4 := by
  rcases instrAt_or_unknown s with ⟨i, hi⟩ | hunknown
  · rw [Reference.stepReads_instrAt hs hi]
    cases i <;> exact ⟨_, rfl, by simp⟩
  · exact ⟨[], stepReads_unknown hs hunknown, Nat.zero_le 4⟩

/-- Settles O12: in `Ready` the opcode byte and at most four more are read, elsewhere nothing. -/
theorem stepReadsAtMostFiveBytes : Obligations.StepReadsAtMostFiveBytes := by
  intro s
  by_cases hs : s.phase = .ready
  · obtain ⟨later, e, hlength⟩ := stepReads_of_ready hs
    rw [e]
    exact ⟨Nat.succ_le_succ hlength, fun _ => rfl⟩
  · rw [stepReads_of_not_ready hs]
    exact ⟨Nat.zero_le 5, fun hready => absurd hready hs⟩

/-! ## The checked operations -/

namespace Memory

variable {n : Nat}

theorem read_above (m : Memory) (h : n > 0xFFFF) : read m n = .error (.addressOutOfBounds n) :=
  if_neg (Nat.not_lt.mpr h)

theorem write_above (m : Memory) (b : Byte) (h : n > 0xFFFF) : write m n b = .error (.addressOutOfBounds n) :=
  if_neg (Nat.not_lt.mpr h)

/-- At a 16-bit address a write passes the bounds check: it is stored, or fails on the read-only region (R36, R38). -/
theorem write_word_ne_addressOutOfBounds (m : Memory) (addr : Word) (b : Byte) (n : Nat) :
    write m addr.toNat b ≠ .error (.addressOutOfBounds n) := by
  rw [write_word]
  split
  case isTrue => nofun
  case isFalse => nofun

end Memory

/-- Settles O30: 16-bit addresses pass the bounds check, and wider ones fail it. -/
theorem addressOutOfBoundsIsCheckedAndUnreachable : Obligations.AddressOutOfBoundsIsCheckedAndUnreachable :=
  fun m v => ⟨fun addr => ⟨⟨_, Memory.read_word m addr⟩, Memory.write_word_ne_addressOutOfBounds m addr v⟩,
    fun _ hn => ⟨Memory.read_above m hn, Memory.write_above m v hn⟩⟩

/-! ## The host's `read` and `write` -/

/-- Settles O28: a host read runs in every phase and only answers. -/
theorem readReturnsTheByteAndChangesNothing : Obligations.ReadReturnsTheByteAndChangesNothing := by
  intro s addr
  rw [hostOp_read]
  exact ⟨rfl, rfl⟩

/-- A write into the read-only region, in every phase (R37, R96). -/
theorem hostOp_write_rom {addr : Word} (haddr : 0x8000 ≤ addr.toNat) (v : Byte) (s : State) :
    hostOp (.write addr v) s = ran "write" (.failed (.romWriteAttempt addr)) s := by
  rw [hostOp_write, if_pos haddr]

/-- A write below the read-only region, unless `Halted` (R37). -/
theorem hostOp_write_enabled {addr : Word} (haddr : addr.toNat ≤ 0x7FFF) (v : Byte)
    (hs : s.phase = .notReady ∨ s.phase = .ready) :
    hostOp (.write addr v) s = ran "write" .done (s.setMem (Memory.put s.mem addr.toNat v)) := by
  rw [hostOp_write, if_neg (by omega), unlessHalted_enabled hs]

/-- A write below the read-only region in `Halted` (R100). -/
theorem hostOp_write_halted {addr : Word} (haddr : addr.toNat ≤ 0x7FFF) (v : Byte) {cause : Fault}
    (hs : s.phase = .halted cause) : hostOp (.write addr v) s = refuse .halted s := by
  rw [hostOp_write, if_neg (by omega), unlessHalted_halted hs]

/-- Settles O29: the three answers of `write`, and the law of a read after a store. -/
theorem writeStoresBelowRomAndFailsAbove : Obligations.WriteStoresBelowRomAndFailsAbove := by
  intro s addr v hwf
  refine ⟨fun haddr hs => ?_, fun haddr cause hs => ?_, fun haddr => ?_⟩
  · rw [hostOp_write_enabled haddr v hs]
    have hread := fun other => memRead_put hwf addr other v
    exact ⟨rfl, (hread addr).trans (if_pos rfl), fun other hne => (hread other).trans (if_neg hne), rfl⟩
  · rw [hostOp_write_halted haddr v hs]
    exact ⟨rfl, rfl⟩
  · rw [hostOp_write_rom haddr v s]
    exact ⟨rfl, rfl⟩

/-! ## The host's `load_image` -/

/-- An image that does not fit, in every phase (R40). -/
theorem hostOp_loadImage_overflow {bytes : List Byte} (hover : Config.imageBase.toNat + bytes.length > 65536)
    (s : State) : hostOp (.loadImage bytes) s = ran "load_image" .imageOverflow s := by
  rw [hostOp_loadImage]
  exact if_neg (Nat.not_le.mpr hover)

/-- An image that fits is placed, unless `Halted` (R40, R100). -/
theorem hostOp_loadImage_fits {bytes : List Byte} (hfit : Config.imageBase.toNat + bytes.length ≤ 65536)
    (s : State) : hostOp (.loadImage bytes) s = unlessHalted s
      (ran "load_image" .accepted (s.setMem (Memory.place s.mem Config.imageBase.toNat bytes))) := by
  rw [hostOp_loadImage]
  exact if_pos hfit

/-- An image that fits, unless `Halted` (R40). -/
theorem hostOp_loadImage_enabled {bytes : List Byte} (hfit : Config.imageBase.toNat + bytes.length ≤ 65536)
    (hs : s.phase = .notReady ∨ s.phase = .ready) : hostOp (.loadImage bytes) s =
      ran "load_image" .accepted (s.setMem (Memory.place s.mem Config.imageBase.toNat bytes)) := by
  rw [hostOp_loadImage_fits hfit, unlessHalted_enabled hs]

/-- An image that fits, in `Halted` (R100). -/
theorem hostOp_loadImage_halted {bytes : List Byte} (hfit : Config.imageBase.toNat + bytes.length ≤ 65536)
    {cause : Fault} (hs : s.phase = .halted cause) : hostOp (.loadImage bytes) s = refuse .halted s := by
  rw [hostOp_loadImage_fits hfit, unlessHalted_halted hs]

section PlacedImage

variable {base : Nat} {bytes : List Byte}

/-- A byte of a placed image reads back at its place. -/
theorem memRead_place_inside (hwf : Memory.wf s.mem = true) (hfit : base + bytes.length ≤ 65536) {k : Nat}
    (hk : k < bytes.length) :
    (s.setMem (Memory.place s.mem base bytes)).memRead (BitVec.ofNat 16 (base + k)) = bytes[k] := by
  have haddr : (BitVec.ofNat 16 (base + k)).toNat = base + k := by
    rw [BitVec.toNat_ofNat]
    exact Nat.mod_eq_of_lt (by omega)
  rw [setMem_memRead, haddr, Memory.lookup_place bytes hwf hfit, dif_pos (by omega)]
  simp only [Nat.add_sub_cancel_left]

/-- An address outside a placed image reads as before. -/
theorem memRead_place_outside (hwf : Memory.wf s.mem = true) (hfit : base + bytes.length ≤ 65536) {addr : Word}
    (haddr : addr.toNat < base ∨ base + bytes.length ≤ addr.toNat) :
    (s.setMem (Memory.place s.mem base bytes)).memRead addr = s.memRead addr := by
  rw [setMem_memRead, Memory.lookup_place bytes hwf hfit, dif_neg (by omega), State.memRead]

end PlacedImage

/-- Settles O31: the three answers of `load_image`, and what a placed image reads as. -/
theorem loadImagePlacesTheWholeImageOrNothing : Obligations.LoadImagePlacesTheWholeImageOrNothing := by
  intro s bytes hwf
  refine ⟨fun hover => ?_, fun hfit cause hs => ?_, fun hfit hs => ?_⟩
  · rw [hostOp_loadImage_overflow hover s]
    exact ⟨rfl, rfl⟩
  · rw [hostOp_loadImage_halted hfit hs]
    exact ⟨rfl, rfl⟩
  · rw [hostOp_loadImage_enabled hfit hs]
    exact ⟨rfl, rfl, fun _ hk => memRead_place_inside hwf hfit hk,
      fun _ haddr => memRead_place_outside hwf hfit haddr⟩

/-! ## An instruction placed at `pc` -/

theorem placeFrom_cons (s : State) (addr : Word) (b : Byte) (bytes : List Byte) :
    s.placeFrom addr (b :: bytes) = (s.setMem (Memory.put s.mem addr.toNat b)).placeFrom (addr + 1) bytes := rfl

/-- Placing bytes does not move `pc`. -/
@[simp] theorem placeFrom_pc (bytes : List Byte) : ∀ (s : State) (addr : Word), (s.placeFrom addr bytes).pc = s.pc := by
  induction bytes with
  | nil => exact fun _ _ => rfl
  | cons b bytes ih => exact fun s addr => ih (s.setMem _) (addr + 1)

theorem succ_add_ofNat (addr : Word) (k : Nat) : addr + 1 + BitVec.ofNat 16 k = addr + BitVec.ofNat 16 (k + 1) := by
  rw [BitVec.add_assoc, BitVec.ofNat_add, BitVec.add_comm (BitVec.ofNat 16 k)]
  rfl

/-- Placed bytes change no byte but those at their addresses. -/
theorem memRead_placeFrom_outside (bytes : List Byte) : ∀ {s : State} {addr other : Word},
    Memory.wf s.mem = true → (∀ k < bytes.length, other ≠ addr + BitVec.ofNat 16 k) →
    (s.placeFrom addr bytes).memRead other = s.memRead other := by
  induction bytes with
  | nil => exact fun _ _ => rfl
  | cons b bytes ih =>
    intro s addr other hwf hother
    have hfirst : other ≠ addr := by simpa using hother 0 (Nat.zero_lt_succ _)
    have hlater : ∀ k < bytes.length, other ≠ addr + 1 + BitVec.ofNat 16 k := fun k hk => by
      rw [succ_add_ofNat]
      exact hother (k + 1) (Nat.succ_lt_succ hk)
    have hput : Memory.wf (Memory.put s.mem addr.toNat b) = true :=
      Memory.wf_put hwf b (Memory.toNat_lt_memSize addr)
    rw [placeFrom_cons, ih hput hlater, memRead_put hwf, if_neg hfirst]

/-- Placed bytes that do not run once around the address space are the bytes read from there. -/
theorem bytesFrom_placeFrom (bytes : List Byte) : ∀ {s : State} {addr : Word},
    Memory.wf s.mem = true → bytes.length ≤ 65536 →
    (s.placeFrom addr bytes).bytesFrom addr bytes.length = bytes := by
  induction bytes with
  | nil => exact fun _ _ => rfl
  | cons b bytes ih =>
    intro s addr hwf hlength
    rw [List.length_cons] at hlength
    have hput : Memory.wf (Memory.put s.mem addr.toNat b) = true :=
      Memory.wf_put hwf b (Memory.toNat_lt_memSize addr)
    have hlater : ∀ k < bytes.length, addr ≠ addr + 1 + BitVec.ofNat 16 k := fun k hk => by bv_omega
    rw [List.length_cons, State.bytesFrom, placeFrom_cons, ih hput (by omega),
      memRead_placeFrom_outside bytes hput hlater, memRead_put hwf, if_pos rfl]

/-- A table word that names an instruction decodes to it as bytes. -/
theorem decode_tableBytes {nbits w : Nat} {i : Instr} (h : decodeTableWord nbits w = some i) :
    ∃ rest, decode (tableBytes nbits w) = .ok (i, rest) := by
  unfold decodeTableWord at h
  split at h
  case h_1 j rest hdecode =>
    cases h
    exact ⟨rest, hdecode⟩
  case h_2 => cases h

theorem withFetchWord_pc (s : State) (nbits w : Nat) : (s.withFetchWord nbits w).pc = s.pc :=
  placeFrom_pc (tableBytes nbits w) s s.pc

/-- The three bytes of a placed table word stand at `pc`. -/
theorem withFetchWord_bytesFrom (hwf : Memory.wf s.mem = true) (nbits w : Nat) :
    (s.withFetchWord nbits w).bytesFrom s.pc 3 = tableBytes nbits w :=
  (bytesFrom_congr rfl 3 s.pc).trans (bytesFrom_placeFrom (tableBytes nbits w) hwf (by decide : 3 ≤ 65536))

/-- Settles O57: the placed bytes are read back at `pc`, so the step decodes them, and no other byte is touched. -/
theorem placedTableWordIsTheNextInstruction : Obligations.PlacedTableWordIsTheNextInstruction := by
  intro s nbits w i hwf hword
  obtain ⟨rest, hdecode⟩ := decode_tableBytes hword
  have hpc := withFetchWord_pc s nbits w
  rw [← withFetchWord_bytesFrom hwf nbits w, ← hpc] at hdecode
  refine ⟨?_, hpc, fun addr h0 h1 h2 => ?_⟩
  · rw [step_of_ready rfl, stepReady_of_instrAt (instrAt_of_decode hdecode)]
    rfl
  · refine memRead_placeFrom_outside (tableBytes nbits w) hwf fun k hk => ?_
    have hk : k < 3 := hk
    interval_cases k
    · simpa using h0
    · exact h1
    · exact h2

end Sys2Proof.Machine
end

section
/-! PROOFS. The encoding (30_encoding R50 to R57): decoder and encoder undo each other, the opcode byte alone tells the
length, and an opcode byte with no handler stops the engine. -/

namespace Sys2Proof

/-! ## The decoder and the encoder -/

/-- Settles O1: each word is the encoding of the instruction it stands for. -/
theorem tableWordsDecodeToTheirInstruction : Obligations.TableWordsDecodeToTheirInstruction :=
  ⟨decode_operands (.ldaImm 0x05) [], decode_operands (.ldaZp 0x10) [], decode_operands (.ldaZpX 0xF0) [],
    decode_operands (.ldaAbs 0x34 0x12) [], decode_operands (.ldaAbsX 0xF0 0x12) [],
    decode_operands (.ldaAbsY 0xF0 0x00) [], decode_operands (.ldaIndX 0x10) [], decode_operands (.ldaIndY 0xFF) []⟩

theorem instr_wellFormed (i : Instr) : i.wellFormed = true :=
  beq_iff_eq.mpr (operands_length i)

/-- Settles O2: the opcode byte selects the instruction's mode, and that mode takes exactly its operand bytes. -/
theorem decodeOfEncodeIsTheInstruction : Obligations.DecodeOfEncodeIsTheInstruction :=
  fun i rest => ⟨instr_wellFormed i, decode_operands i rest⟩

/-- Settles O3: a decode that succeeds found the table's byte of its mode and then its operand bytes. -/
theorem encodeOfDecodeIsTheBytes : Obligations.EncodeOfDecodeIsTheBytes :=
  fun _ _ _ h => (decode_ok h).symm

/-! ## The length -/

/-- The mode of a decoded instruction is the one its opcode byte has in the table. -/
theorem decodeOpcode_of_decode_ok {op : Byte} {bytes rest : List Byte} {i : Instr}
    (h : decode (op :: bytes) = .ok (i, rest)) : decodeOpcode op = some i.mode :=
  (decodeOpcode_eq_some_iff op i.mode).mpr (List.cons.inj (decode_ok h)).1

/-- A decode consumes as many bytes as its instruction is long. -/
theorem length_of_decode_ok {bytes rest : List Byte} {i : Instr} (h : decode bytes = .ok (i, rest)) :
    bytes.length = i.length + rest.length := by
  rw [decode_ok h, List.length_cons, List.length_append, ← operands_length]
  omega

/-- Instructions decoded from the same opcode byte are equally long: their mode is the byte's. -/
theorem length_eq_of_decode_ok {op : Byte} {bytes₁ bytes₂ rest₁ rest₂ : List Byte} {i₁ i₂ : Instr}
    (h₁ : decode (op :: bytes₁) = .ok (i₁, rest₁)) (h₂ : decode (op :: bytes₂) = .ok (i₂, rest₂)) :
    i₁.length = i₂.length := by
  have hmode : i₁.mode = i₂.mode :=
    Option.some.inj ((decodeOpcode_of_decode_ok h₁).symm.trans (decodeOpcode_of_decode_ok h₂))
  rw [Instr.length, Instr.length, hmode]

/-! ## Opcode bytes with no handler -/

/-- The opcode bytes of the table as numbers (R54). -/
def listedOpcodes : List Nat := opcodeTable.map fun row => row.1.toNat

theorem listedOpcodes_length : listedOpcodes.length = 8 := rfl

/-- No byte stands in two rows, and each is a byte: the listed opcodes are eight of the 256 values. -/
theorem listedOpcodes_subperm_range : listedOpcodes.Subperm (List.range 256) := by
  have hdistinct : listedOpcodes.Nodup := by decide
  have hbyte : ∀ n ∈ listedOpcodes, n < 256 := by decide
  exact hdistinct.subperm fun n hn => List.mem_range.mpr (hbyte n hn)

/-- A byte has no handler exactly if it is in no row of the table (R55). -/
theorem decodeOpcode_isNone (op : Byte) : (decodeOpcode op).isNone = decide (op.toNat ∉ listedOpcodes) := by
  revert op; decide

/-- The byte values with no handler are the 256 without the listed ones (R56). -/
theorem filter_isNone_eq_diff : ((List.range 256).filter fun n => (decodeOpcode (BitVec.ofNat 8 n)).isNone) =
    (List.range 256).diff listedOpcodes := by
  rw [List.nodup_range.sdiff_eq_filter]
  refine List.filter_congr fun n hn => ?_
  rw [decodeOpcode_isNone, BitVec.toNat_ofNat, Nat.mod_eq_of_lt (List.mem_range.mp hn)]

/-- 256 byte values less the eight listed ones (R56). -/
theorem count_unknown_opcodes :
    ((List.range 256).filter fun n => (decodeOpcode (BitVec.ofNat 8 n)).isNone).length = 248 := by
  have hcounts := List.subperm_ext_iff.mp listedOpcodes_subperm_range
  have hlengths := (List.subperm_append_diff_self_of_count_le hcounts).length_eq
  rw [List.length_append, List.length_range, listedOpcodes_length] at hlengths
  rw [filter_isNone_eq_diff]
  omega

end Sys2Proof

namespace Sys2Proof.Machine

/-- The step of a `Ready` engine on an opcode byte with no handler (R97). -/
theorem step_unknown {s : State} (hs : s.phase = .ready) (hunknown : decodeOpcode (s.memRead s.pc) = none) :
    step s = .next (fatalStop (.unknownOpcode s.pc (s.memRead s.pc)) s.passByte) := by
  rw [step_of_ready hs, stepReady_unknown hunknown]

/-- Settles O4: a byte outside the table has no row, so the decode names it and the step stops on it. -/
theorem unlistedOpcodesHaveNoHandler : Obligations.UnlistedOpcodesHaveNoHandler := by
  refine ⟨count_unknown_opcodes, fun op hop => ?_⟩
  have hunknown : decodeOpcode op = none := (decodeOpcode_eq_none_iff op).mpr hop
  refine ⟨decode_unknown hunknown, fun s hs hread => ?_⟩
  subst hread
  exact ⟨_, step_unknown hs hunknown, rfl⟩

/-- Settles O5: the opcode byte fixes the mode, the mode the length; without a mode the step passes one byte and stops. -/
theorem lengthIsToldByTheOpcodeByte : Obligations.LengthIsToldByTheOpcodeByte :=
  ⟨fun _ _ _ _ _ _ _ h₁ h₂ => ⟨length_eq_of_decode_ok h₁ h₂, length_of_decode_ok h₁⟩,
    fun _ hs hunknown => ⟨_, step_unknown hs hunknown, rfl, rfl⟩⟩

end Sys2Proof.Machine
end

section
/-! PROOFS. The addressing modes (40_addressing_modes R59 to R71): zero-page arithmetic and the page cross in natural
numbers, what each resolver returns, the cycles an instruction costs, and the step against the spec's pseudocode. -/

namespace Sys2Proof.Machine

variable {s : State}

/-! ## The step is the pseudocode -/

/-- A penalty added to a base cost, as the pseudocode writes the two counts (R63). -/
theorem add_crossPenalty (n : Nat) (b : Bool) : n + crossPenalty b = if b then n + 1 else n := by
  cases b <;> rfl

/-- The operand byte at `pc` (R51, R73). -/
theorem memRead_of_operandD8 {d8 : Byte} (h : s.bytesFrom s.pc 1 = [d8]) : s.memRead s.pc = d8 :=
  (List.cons.inj h).1

/-- The two operand bytes at `pc`, low byte first (R51, R74). -/
theorem memRead_of_operandA16 {lo hi : Byte} (h : s.bytesFrom s.pc 2 = [lo, hi]) :
    s.memRead s.pc = lo ∧ s.memRead (s.pc + 1) = hi :=
  ⟨(List.cons.inj h).1, (List.cons.inj (List.cons.inj h).2).1⟩

/-- The handler the pseudocode dispatches to, fetching its own operand bytes at `pc`, ends in the state of the
instruction's meaning, which is given them (R64 to R71, R86 to R93). -/
theorem exec_eq_handler {i : Instr} (h : s.bytesFrom s.pc i.operands.length = i.operands) (reads : List Word) :
    ∃ handle, Reference.handler (encodeOpcode i.mode) = some handle ∧
      exec i s = .next ((handle ⟨s, reads⟩).2.st.addCycles (handle ⟨s, reads⟩).1) := by
  cases i with
  | ldaImm d8 =>
    obtain rfl := memRead_of_operandD8 h
    exact ⟨_, Reference.handler_encodeOpcode .immediate, exec_ldaImm _ s⟩
  | ldaZp d8 =>
    obtain rfl := memRead_of_operandD8 h
    exact ⟨_, Reference.handler_encodeOpcode .zeroPage, exec_ldaZp _ s⟩
  | ldaZpX d8 =>
    obtain rfl := memRead_of_operandD8 h
    exact ⟨_, Reference.handler_encodeOpcode .zeroPageX, exec_ldaZpX _ s⟩
  | ldaAbs lo hi =>
    obtain ⟨rfl, rfl⟩ := memRead_of_operandA16 h
    exact ⟨_, Reference.handler_encodeOpcode .absolute, exec_ldaAbs _ _ s⟩
  | ldaAbsX lo hi =>
    obtain ⟨rfl, rfl⟩ := memRead_of_operandA16 h
    refine ⟨_, Reference.handler_encodeOpcode .absoluteX, ?_⟩
    rw [exec_ldaAbsX, add_crossPenalty, Reference.ldaAbsoluteX_eq]
  | ldaAbsY lo hi =>
    obtain ⟨rfl, rfl⟩ := memRead_of_operandA16 h
    refine ⟨_, Reference.handler_encodeOpcode .absoluteY, ?_⟩
    rw [exec_ldaAbsY, add_crossPenalty, Reference.ldaAbsoluteY_eq]
  | ldaIndX d8 =>
    obtain rfl := memRead_of_operandD8 h
    exact ⟨_, Reference.handler_encodeOpcode .indirectX, exec_ldaIndX _ s⟩
  | ldaIndY p =>
    obtain rfl := memRead_of_operandD8 h
    refine ⟨_, Reference.handler_encodeOpcode .indirectY, ?_⟩
    rw [exec_ldaIndY, add_crossPenalty, Reference.ldaIndirectY_eq]

/-- An instruction stands at `pc` as its opcode byte, and its operand bytes one byte on (R50, R51). -/
theorem opcode_and_operands_of_instrAt {i : Instr} (h : s.bytesFrom s.pc i.length = encode i) :
    s.memRead s.pc = encodeOpcode i.mode ∧
      s.passByte.bytesFrom s.passByte.pc i.operands.length = i.operands := by
  rw [← operands_length, State.bytesFrom, encode] at h
  obtain ⟨hopcode, hoperands⟩ := List.cons.inj h
  exact ⟨hopcode, (bytesFrom_congr (s := s.passByte) (t := s) rfl _ _).trans hoperands⟩

/-- The step of a `Ready` engine ends where the pseudocode's does (R75, R97). -/
theorem stepReady_eq_reference (s : State) : stepReady s = .next (Reference.stepReady s).st := by
  rcases instrAt_or_unknown s with ⟨i, hi⟩ | hunknown
  · obtain ⟨hopcode, hoperands⟩ := opcode_and_operands_of_instrAt hi
    obtain ⟨handle, hhandler, hexec⟩ := exec_eq_handler hoperands [s.pc]
    rw [stepReady_of_instrAt hi, hexec, Reference.stepReady_handler (hopcode ▸ hhandler)]
  · rw [stepReady_unknown hunknown, Reference.stepReady_unknown hunknown]

/-- Settles O7: in `Ready` by the equation of the two steps, in the other phases both are refused. -/
theorem stepIsTheSpecsPseudocode : Obligations.StepIsTheSpecsPseudocode := by
  intro s
  cases hs : s.phase with
  | notReady => simp only [step_of_notReady hs, Reference.step, hs]
  | ready => simp only [step_of_ready hs, Reference.step, hs, stepReady_eq_reference]
  | halted cause => simp only [step_of_halted hs, Reference.step, hs]

/-! ## Zero-page arithmetic -/

/-- A byte sum as an address: modulo 256, so in page 0 (R10, R61). -/
theorem zext16_ofNat (n : Nat) : zext16 (BitVec.ofNat 8 n) = BitVec.ofNat 16 (n % 256) := by
  rw [zext16_eq_ofNat, BitVec.toNat_ofNat]

/-- The sum of two bytes is that of their values (R10). -/
theorem byte_add_eq_ofNat (b c : Byte) : b + c = BitVec.ofNat 8 (b.toNat + c.toNat) := by
  rw [BitVec.ofNat_add, BitVec.ofNat_toNat, BitVec.ofNat_toNat, BitVec.setWidth_eq, BitVec.setWidth_eq]

theorem zext16_add (b c : Byte) : zext16 (b + c) = BitVec.ofNat 16 ((b.toNat + c.toNat) % 256) := by
  rw [byte_add_eq_ofNat, zext16_ofNat]

/-- The high byte of a pointer stands one on, modulo 256 (R60). -/
theorem zext16_succ (p : Byte) : zext16 (p + 1) = BitVec.ofNat 16 ((p.toNat + 1) % 256) := zext16_add p 1

theorem resolveZeroPageX_ea_toNat (d8 : Byte) (s : State) :
    (resolveZeroPageX d8 s).ea.toNat = (d8.toNat + s.x.toNat) % 256 :=
  (zext16_toNat (d8 + s.x)).trans (BitVec.toNat_add d8 s.x)

/-- The little-endian pointer at `n` of page 0, both bytes modulo 256 (R60). -/
def zeroPagePointer (s : State) (n : Nat) : Nat :=
  (s.memRead (BitVec.ofNat 16 ((n + 1) % 256))).toNat * 256 + (s.memRead (BitVec.ofNat 16 (n % 256))).toNat

theorem readWordZP_ofNat (s : State) (n : Nat) :
    (s.readWordZP (BitVec.ofNat 8 n)).toNat = zeroPagePointer s n := by
  have hnext : BitVec.ofNat 8 n + 1 = BitVec.ofNat 8 (n + 1) := (BitVec.ofNat_add n 1).symm
  rw [readWordZP_eq, word_toNat, hnext, zext16_ofNat, zext16_ofNat, zeroPagePointer]

theorem readWordZP_toNat (s : State) (p : Byte) : (s.readWordZP p).toNat = zeroPagePointer s p.toNat := by
  rw [← readWordZP_ofNat, BitVec.ofNat_toNat, BitVec.setWidth_eq]

/-- Settles O34: a byte is its own remainder modulo 256. -/
theorem zeroPagePointerTakesBothBytesFromPageZero : Obligations.ZeroPagePointerTakesBothBytesFromPageZero := by
  intro s p
  rw [readWordZP_toNat, zeroPagePointer, Nat.mod_eq_of_lt p.isLt]

/-! ## The page cross -/

/-- High bytes of base and wrapped target differ exactly when the low-byte addition carries: the index is below 256. -/
theorem crossed_indexed (base : Word) (index : Byte) :
    crossed base (indexed base index) = decide (base.toNat % 256 + index.toNat > 255) := by
  have hbase := base.isLt
  have hindex := index.isLt
  rw [crossed_eq, indexed_toNat, decide_eq_decide]
  omega

/-- Settles O37: the wrapped sum, its carry and its page. -/
theorem pageCrossIsTheCarryOfTheLowByte : Obligations.PageCrossIsTheCarryOfTheLowByte :=
  fun base index => ⟨indexed_toNat base index, crossed_indexed base index,
    by rw [crossed_eq, indexed_toNat]⟩

theorem indexed_word_toNat (hi lo index : Byte) : (indexed (word hi lo) index).toNat =
    (hi.toNat * 256 + lo.toNat + index.toNat) % 65536 := by
  rw [indexed_toNat, word_toNat]

/-- The low byte of an absolute base is its first operand byte (R10). -/
theorem crossed_indexed_word (hi lo index : Byte) : crossed (word hi lo) (indexed (word hi lo) index) =
    decide (lo.toNat + index.toNat > 255) := by
  rw [crossed_indexed, word_toNat, Nat.mul_add_mod', Nat.mod_eq_of_lt lo.isLt]

/-! ## The resolvers -/

/-- Settles O36: resolver by resolver, in the arithmetic above. -/
theorem resolversComputeTheirAddressAndMoveOnlyPc : Obligations.ResolversComputeTheirAddressAndMoveOnlyPc := by
  intro d8 lo hi s
  have hindX : (s.readWordZP (d8 + s.x)).toNat = zeroPagePointer s (d8.toNat + s.x.toNat) := by
    rw [byte_add_eq_ofNat, readWordZP_ofNat]
  have hindY : (indexed (s.readWordZP d8) s.y).toNat = (zeroPagePointer s d8.toNat + s.y.toNat) % 65536 := by
    rw [indexed_toNat, readWordZP_toNat]
  have hcarry : crossed (s.readWordZP d8) (indexed (s.readWordZP d8) s.y) =
      decide (zeroPagePointer s d8.toNat % 256 + s.y.toNat > 255) := by
    rw [crossed_indexed, readWordZP_toNat]
  exact ⟨rfl, ⟨zext16_toNat d8, rfl, rfl⟩, ⟨resolveZeroPageX_ea_toNat d8 s, rfl, rfl⟩,
    ⟨word_toNat hi lo, rfl, passWord_eq s⟩,
    ⟨indexed_word_toNat hi lo s.x, crossed_indexed_word hi lo s.x, passWord_eq s⟩,
    ⟨indexed_word_toNat hi lo s.y, crossed_indexed_word hi lo s.y, passWord_eq s⟩,
    ⟨hindX, rfl, rfl⟩, ⟨hindY, hcarry, rfl⟩⟩

/-! ## The cost of a step -/

/-- The cycles the meaning of an instruction counts (R63, R86 to R93). -/
def cycleCost (i : Instr) (s : State) : Nat :=
  match i with
  | .ldaImm _ => 2
  | .ldaZp _ => 3
  | .ldaZpX _ => 4
  | .ldaAbs _ _ => 4
  | .ldaAbsX lo hi => 4 + crossPenalty (crossed (word hi lo) (indexed (word hi lo) s.x))
  | .ldaAbsY lo hi => 4 + crossPenalty (crossed (word hi lo) (indexed (word hi lo) s.y))
  | .ldaIndX _ => 6
  | .ldaIndY p => 5 + crossPenalty (crossed (s.readWordZP p) (indexed (s.readWordZP p) s.y))

/-- The meaning of an instruction counts its cost and leaves the phase. -/
theorem exec_cycleCost (i : Instr) (s : State) :
    ∃ t, exec i s = .next t ∧ t.phase = s.phase ∧ t.cycles = s.cycles + cycleCost i s := by
  cases i <;> exact ⟨_, rfl, rfl, rfl⟩

/-- The opcode fetch moves `pc`, on which no cost depends. -/
theorem cycleCost_passByte (i : Instr) (s : State) : cycleCost i s.passByte = cycleCost i s := by
  cases i <;> rfl

/-- The count a step returns for the instruction at `pc` is its cost (R77, R115). -/
theorem hostOp_step_response {i : Instr} (hs : s.phase = .ready) (hi : s.bytesFrom s.pc i.length = encode i) :
    (hostOp .step s).response = .cycles (cycleCost i s) := by
  obtain ⟨t, hexec, hphase, hcycles⟩ := exec_cycleCost i s.passByte
  rw [← stepReady_of_instrAt hi, ← step_of_ready hs] at hexec
  rw [hostOp_step_ready hexec (hphase.trans hs), ran, hcycles, cycleCost_passByte, passByte_cycles,
    Nat.add_sub_cancel_left]

/-- A cross costs one cycle, told by the carry of the low byte (R63). -/
theorem crossPenalty_crossed_indexed (base : Word) (index : Byte) :
    crossPenalty (crossed base (indexed base index)) = if base.toNat % 256 + index.toNat > 255 then 1 else 0 := by
  simp only [crossed_indexed, crossPenalty, decide_eq_true_eq]

/-- Settles O24: the cost of the instruction at `pc`, its crosses as carries. -/
theorem stepReturnsTheCostOfTheMode : Obligations.StepReturnsTheCostOfTheMode := by
  intro s i rest hs hdecode
  dsimp only
  rw [hostOp_step_response hs (instrAt_of_decode hdecode)]
  cases i with
  | ldaAbsX lo hi => simp only [cycleCost, crossPenalty_crossed_indexed, word_toNat]
  | ldaAbsY lo hi => simp only [cycleCost, crossPenalty_crossed_indexed, word_toNat]
  | ldaIndY p => simp only [cycleCost, crossPenalty_crossed_indexed, readWordZP_toNat, zeroPagePointer]
  | _ => rfl

/-! ## Page 0 -/

/-- Settles O35: the resolvers by definition, the reads by the pseudocode's, the counts by the cost. -/
theorem zeroPageArithmeticNeverLeavesPageZero : Obligations.ZeroPageArithmeticNeverLeavesPageZero := by
  refine ⟨fun d8 s => ⟨resolveZeroPageX_ea_toNat d8 s, rfl, rfl, rfl, rfl, rfl, rfl⟩,
    fun d8 s hs => ⟨fun h => ?_, fun h => ?_, fun h => ?_⟩⟩
  · rw [Reference.stepReads_instrAt (i := .ldaZpX d8) hs h, hostOp_step_response (i := .ldaZpX d8) hs h,
      ← zext16_add]
    exact ⟨rfl, rfl⟩
  · rw [Reference.stepReads_instrAt (i := .ldaIndX d8) hs h, hostOp_step_response (i := .ldaIndX d8) hs h,
      ← zext16_add, ← BitVec.toNat_add, ← zext16_succ]
    exact ⟨rfl, rfl⟩
  · rw [Reference.stepReads_instrAt (i := .ldaIndY d8) hs h, hostOp_step_response (i := .ldaIndY d8) hs h,
      cycleCost, add_crossPenalty, ← zext16_succ, ← zext16_eq_ofNat]
    exact ⟨rfl, rfl⟩

end Sys2Proof.Machine
end

section
/-! PROOFS. Fetch, decode and dispatch (41_fetch_dispatch R75 to R81): what a step runs, returns and changes, how a run
ends, and straight-line programs. -/

namespace Sys2Proof.Machine

variable {s t : State}

/-! ## One step -/

/-- Everything `step` can do in `Ready`: load a byte for the instruction at `pc`, or stop on an unknown opcode
(R77, R78). -/
theorem step_loads_or_stops (hs : s.phase = .ready) :
    (∃ i v c, s.bytesFrom s.pc i.length = encode i ∧ 2 ≤ c ∧ c ≤ 6 ∧
      step s = .next ((loadA v (s.setPc (s.pc + BitVec.ofNat 16 i.length))).addCycles c)) ∨
    (decodeOpcode (s.memRead s.pc) = none ∧
      step s = .next (fatalStop (.unknownOpcode s.pc (s.memRead s.pc)) s.passByte)) := by
  rw [step_of_ready hs]
  exact stepReady_shape s

/-- A step outside `Ready` is refused, as the host sees it (R76). -/
theorem hostOp_step_of_not_ready (hs : s.phase ≠ .ready) : ∃ r, hostOp .step s = refuse r s := by
  cases hphase : s.phase with
  | notReady => exact ⟨_, hostOp_step_refused (step_of_notReady hphase)⟩
  | ready => exact absurd hphase hs
  | halted cause => exact ⟨_, hostOp_step_refused (step_of_halted hphase)⟩

theorem encode_length (i : Instr) : (encode i).length = i.length := operands_length i

/-- An instruction that stands at `pc` is what the three bytes there decode to (R50, R53). -/
theorem decode_of_instrAt {i : Instr} (h : s.bytesFrom s.pc i.length = encode i) :
    ∃ rest, decode (s.bytesFrom s.pc 3) = .ok (i, rest) := by
  have hle : i.length ≤ 3 := by rcases instr_length_two_or_three i with e | e <;> omega
  obtain ⟨k, hk⟩ := Nat.exists_eq_add_of_le hle
  refine ⟨s.bytesFrom (s.pc + BitVec.ofNat 16 i.length) k, ?_⟩
  rw [hk, bytesFrom_append, h]
  exact decode_operands i _

/-- Settles O6: the decoded instruction stands at `pc`, and the step enters it past its opcode byte. -/
theorem stepRunsTheDecodedInstruction : Obligations.StepRunsTheDecodedInstruction := by
  intro s i rest hs hdecode
  rw [step_of_ready hs, stepReady_of_instrAt (instrAt_of_decode hdecode)]
  rfl

/-- Settles O8: a load and a stop are both next states, and the other phases refuse. -/
theorem stepIsRefusedOutsideReady : Obligations.StepIsRefusedOutsideReady := by
  refine fun s => ⟨fun hs => ?_, step_of_notReady, fun _ => step_of_halted, fun hs => ?_⟩
  · rcases step_loads_or_stops hs with ⟨i, v, c, -, -, -, e⟩ | ⟨-, e⟩
    · exact ⟨_, e⟩
    · exact ⟨_, e⟩
  · obtain ⟨r, e⟩ := hostOp_step_of_not_ready hs
    rw [e]
    exact ⟨rfl, rfl, r, rfl⟩

/-- Settles O10: a load returns the cycles it counts, a stop its cause. -/
theorem stepReturnsACountOrUnknownOpcode : Obligations.StepReturnsACountOrUnknownOpcode := by
  intro s hs
  rcases hostOp_step_cases s with ⟨r, -, hne, -⟩ | ⟨i, v, c, -, hlow, hhigh, -, -, e⟩ | ⟨-, -, -, e⟩
  · exact absurd hs hne
  · have effect := loadEffect_of_load s v i.length c
    rw [e]
    exact .inl ⟨c, hlow, hhigh, rfl, effect.phase.trans hs, effect.cycles⟩
  · rw [e]
    exact .inr ⟨_, _, rfl, rfl, rfl⟩

/-- Settles O11: a load writes `pc`, the accumulator, two flags and `cycles`; a stop `pc` and the phase. -/
theorem stepChangesOnlyWhatTheRuleLists : Obligations.StepChangesOnlyWhatTheRuleLists := by
  intro s hs
  rcases step_loads_or_stops hs with ⟨i, v, c, hi, -, -, e⟩ | ⟨-, e⟩
  · have effect := loadEffect_of_load s v i.length c
    obtain ⟨rest, hdecode⟩ := decode_of_instrAt hi
    exact ⟨_, e, .inl ⟨effect.phase.trans hs, rfl, effect.otherFlags, effect.reservedBit, i, rest, hdecode,
      effect.pc⟩⟩
  · exact ⟨_, e, .inr ⟨⟨_, rfl⟩, rfl⟩⟩

/-! ## Runs -/

theorem runFrom_zero (hs : s.phase = .ready) : runFrom 0 s = .afterSteps s := by
  simp only [runFrom, hs]

/-- A run goes on after a step that completes (R81(a)). -/
theorem runFrom_succ_of_ready (h : step s = .next t) (ht : t.phase = .ready) (n : Nat) :
    runFrom (n + 1) s = runFrom n t := by
  have e : hostStep s = _ := hostOp_step_ready h ht
  simp only [runFrom, e, ran]

/-- A run ends at a step that stops (R81(b)). -/
theorem runFrom_succ_of_halted {cause : Fault} (h : step s = .next t) (ht : t.phase = .halted cause) (n : Nat) :
    runFrom (n + 1) s = .atFatal cause t := by
  have e : hostStep s = _ := hostOp_step_halted h ht
  simp only [runFrom, e, stopped]

/-- Settles O58: the run is refused, so it is no safe run. -/
theorem noRunStartsOutsideReady : Obligations.NoRunStartsOutsideReady := by
  intro n s hs
  obtain ⟨r, e⟩ := runFrom_refused hs n
  refine ⟨⟨r, e⟩, fun ⟨t, hsafe⟩ => ?_⟩
  rw [e] at hsafe
  cases hsafe

/-- Settles O55, by induction on the number of steps: the first step either stops, or counts 2 to 6 cycles and leaves
memory, so the byte that the rest of the run stops on stood there from the start. -/
theorem runsCountTwoToSixCyclesAStep : Obligations.RunsCountTwoToSixCyclesAStep := by
  intro n
  induction n with
  | zero => exact fun s hs => .inl ⟨s, runFrom_zero hs, hs, by omega, by omega⟩
  | succ n ih =>
    intro s hs
    rcases step_loads_or_stops hs with ⟨i, v, c, -, hlow, hhigh, e⟩ | ⟨hunknown, e⟩
    · have effect := loadEffect_of_load s v i.length c
      have hready := effect.phase.trans hs
      have hcycles := effect.cycles
      rw [runFrom_succ_of_ready e hready]
      rcases ih _ hready with ⟨t, hrun, ht, hmin, hmax⟩ | ⟨addr, opcode, t, hrun, ht, hnone, hread, hpc⟩
      · exact .inl ⟨t, hrun, ht, by omega, by omega⟩
      · exact .inr ⟨addr, opcode, t, hrun, ht, hnone, (effect.everyByte addr).symm.trans hread, hpc⟩
    · exact .inr ⟨_, _, _, runFrom_succ_of_halted e rfl n, rfl, hunknown, rfl, rfl⟩

/-! ## Straight-line programs -/

/-- The first instruction of a program that stands at `pc`, and the bytes of the others behind it (R80). -/
theorem instrAt_encode_append {i : Instr} {bytes : List Byte} (h : s.InstrAt (encode i ++ bytes)) :
    s.bytesFrom s.pc i.length = encode i ∧
      s.bytesFrom (s.pc + BitVec.ofNat 16 i.length) bytes.length = bytes := by
  rw [State.InstrAt, List.length_append, encode_length, bytesFrom_append] at h
  exact List.append_inj h (by rw [bytesFrom_length, encode_length])

/-- A program of loads at `pc` runs to the byte after it: each step completes the instruction at `pc`, and leaves the
rest of the program in memory, at the new `pc`. -/
theorem runFrom_program (program : List Instr) : ∀ {s : State}, s.phase = .ready →
    s.InstrAt (program.flatMap encode) → ∃ t, runFrom program.length s = .afterSteps t ∧
      t.pc = s.pc + BitVec.ofNat 16 (program.map Instr.length).sum := by
  induction program with
  | nil => exact fun {s} hs _ => ⟨s, runFrom_zero hs, (BitVec.add_zero s.pc).symm⟩
  | cons i program ih =>
    intro s hs h
    rw [List.flatMap_cons] at h
    obtain ⟨hi, hrest⟩ := instrAt_encode_append h
    obtain ⟨v, c, e⟩ := step_of_instrAt hs hi
    have effect := loadEffect_of_load s v i.length c
    have hready := effect.phase.trans hs
    obtain ⟨t, hrun, hpc⟩ := ih hready (by rw [State.InstrAt, bytesFrom_congr effect.memory]; exact hrest)
    refine ⟨t, (runFrom_succ_of_ready e hready program.length).trans hrun, ?_⟩
    rw [hpc, effect.pc, List.map_cons, List.sum_cons, BitVec.ofNat_add, BitVec.add_assoc]

/-- Settles O56: a run that ends after its steps is a safe one. -/
theorem straightLineProgramsRunSafely : Obligations.StraightLineProgramsRunSafely := by
  intro program s hs h
  obtain ⟨t, hrun, hpc⟩ := runFrom_program program hs h
  exact ⟨⟨t, hrun⟩, t, hrun, hpc⟩

end Sys2Proof.Machine
end

section
/-! PROOFS. The load-accumulator family (42_load_accumulator R82 to R93): the byte each instruction loads, the addresses it
reads and what it leaves unchanged, for the meaning and for the step; and the failures the host's operations can give
(60_exceptions R98). -/

namespace Sys2Proof.Machine

variable {s : State}

/-! ## The load an instruction makes -/

/-- The byte an instruction loads (R64 to R71, R86 to R93). -/
def loadedByte (i : Instr) (s : State) : Byte :=
  match i with
  | .ldaImm d8 => d8
  | .ldaZp d8 => s.memRead (zext16 d8)
  | .ldaZpX d8 => s.memRead (zext16 (d8 + s.x))
  | .ldaAbs lo hi => s.memRead (word hi lo)
  | .ldaAbsX lo hi => s.memRead (indexed (word hi lo) s.x)
  | .ldaAbsY lo hi => s.memRead (indexed (word hi lo) s.y)
  | .ldaIndX d8 => s.memRead (s.readWordZP (d8 + s.x))
  | .ldaIndY p => s.memRead (indexed (s.readWordZP p) s.y)

/-- The state after an instruction that moves `pc` by `n`: its byte loaded, its cost counted. -/
def afterLoad (i : Instr) (n : Nat) (s : State) : State :=
  (loadA (loadedByte i s) (s.setPc (s.pc + BitVec.ofNat 16 n))).addCycles (cycleCost i s)

theorem loadEffect_afterLoad (i : Instr) (n : Nat) (s : State) :
    LoadEffect s (afterLoad i n s) (loadedByte i s) n (cycleCost i s) :=
  loadEffect_of_load s (loadedByte i s) n (cycleCost i s)

/-- The meaning of an instruction, entered at its operand bytes, passes them. -/
theorem exec_eq_afterLoad (i : Instr) (s : State) : exec i s = .next (afterLoad i i.operands.length s) := by
  cases i with
  | ldaAbs lo hi => rw [exec_ldaAbs, passWord_eq]; rfl
  | ldaAbsX lo hi => rw [exec_ldaAbsX, passWord_eq]; rfl
  | ldaAbsY lo hi => rw [exec_ldaAbsY, passWord_eq]; rfl
  | _ => rfl

/-- The opcode fetch moves `pc`, on which no loaded byte depends. -/
theorem loadedByte_passByte (i : Instr) (s : State) : loadedByte i s.passByte = loadedByte i s := by
  cases i <;> rfl

/-- The operand bytes behind the opcode byte make the whole instruction. -/
theorem afterLoad_passByte (i : Instr) (s : State) :
    afterLoad i i.operands.length s.passByte = afterLoad i i.length s := by
  rw [afterLoad, loadedByte_passByte, cycleCost_passByte, passByte_pc, succ_add_ofNat, operands_length]
  rfl

/-- The step of a `Ready` engine passes the whole instruction at `pc`. -/
theorem step_eq_afterLoad {i : Instr} (hs : s.phase = .ready) (hi : s.bytesFrom s.pc i.length = encode i) :
    step s = .next (afterLoad i i.length s) := by
  rw [step_of_ready hs, stepReady_of_instrAt hi, exec_eq_afterLoad, afterLoad_passByte]

/-- The addresses a step reads for the instruction at `pc`, in order (R45, R64 to R71, R86 to R93). -/
def instrReads (i : Instr) (s : State) : List Word :=
  match i with
  | .ldaImm _ => [s.pc, s.pc + 1]
  | .ldaZp d8 => [s.pc, s.pc + 1, zext16 d8]
  | .ldaZpX d8 => [s.pc, s.pc + 1, zext16 (d8 + s.x)]
  | .ldaAbs lo hi => [s.pc, s.pc + 1, s.pc + 2, word hi lo]
  | .ldaAbsX lo hi => [s.pc, s.pc + 1, s.pc + 2, indexed (word hi lo) s.x]
  | .ldaAbsY lo hi => [s.pc, s.pc + 1, s.pc + 2, indexed (word hi lo) s.y]
  | .ldaIndX d8 => [s.pc, s.pc + 1, zext16 (d8 + s.x), zext16 (d8 + s.x + 1), s.readWordZP (d8 + s.x)]
  | .ldaIndY p => [s.pc, s.pc + 1, zext16 p, zext16 (p + 1), indexed (s.readWordZP p) s.y]

theorem word_add_one_add_one (w : Word) : w + 1 + 1 = w + 2 := succ_add_ofNat w 1

theorem stepReads_eq_instrReads {i : Instr} (hs : s.phase = .ready) (hi : s.bytesFrom s.pc i.length = encode i) :
    Reference.stepReads s = instrReads i s := by
  rw [Reference.stepReads_instrAt hs hi]
  cases i <;> simp only [instrReads, word_add_one_add_one]

/-- Every instruction completes: as a meaning, and as the step that finds it at `pc`, which reads its addresses. -/
theorem load_completes (i : Instr) (s : State) :
    (∃ t, exec i s = .next t ∧ LoadEffect s t (loadedByte i s) i.operands.length (cycleCost i s)) ∧
    (s.phase = .ready → s.InstrAt (encode i) →
      (∃ t, step s = .next t ∧ LoadEffect s t (loadedByte i s) i.length (cycleCost i s)) ∧
      Reference.stepReads s = instrReads i s) := by
  refine ⟨⟨_, exec_eq_afterLoad i s, loadEffect_afterLoad i _ s⟩, fun hs hi => ?_⟩
  rw [State.InstrAt, encode_length] at hi
  exact ⟨⟨_, step_eq_afterLoad hs hi, loadEffect_afterLoad i _ s⟩, stepReads_eq_instrReads hs hi⟩

/-! ## Addresses and costs in natural numbers -/

theorem indexed_eq_ofNat (base : Word) (index : Byte) :
    indexed base index = BitVec.ofNat 16 ((base.toNat + index.toNat) % 65536) := by
  rw [← indexed_toNat, BitVec.ofNat_toNat, BitVec.setWidth_eq]

/-- The high byte of an indexed pointer stands one on, modulo 256 (R92). -/
theorem zext16_add_succ (b c : Byte) :
    zext16 (b + c + 1) = BitVec.ofNat 16 ((b.toNat + c.toNat + 1) % 256) := by
  rw [byte_add_eq_ofNat, ← zext16_ofNat, BitVec.ofNat_add (b.toNat + c.toNat) 1]
  rfl

/-- One cycle more when the high bytes of base and target differ (R63). -/
theorem add_crossPenalty_indexed (n : Nat) (base : Word) (index : Byte) :
    n + crossPenalty (crossed base (indexed base index)) =
      if base.toNat / 256 = (base.toNat + index.toNat) % 65536 / 256 then n else n + 1 := by
  rw [add_crossPenalty, crossed_eq, indexed_toNat]
  simp only [decide_eq_true_eq, ne_eq, ite_not]

/-! ## The eight instructions -/

/-- Settles O14: the operand byte is the byte loaded. -/
theorem ldaImmediateLoadsItsOperand : Obligations.LdaImmediateLoadsItsOperand :=
  fun d8 s => ⟨rfl, load_completes (.ldaImm d8) s⟩

/-- Settles O15: the operand byte is the address, zero-extended. -/
theorem ldaZeroPageLoadsFromPageZero : Obligations.LdaZeroPageLoadsFromPageZero := by
  intro d8 s
  dsimp only
  rw [← zext16_eq_ofNat]
  exact ⟨rfl, load_completes (.ldaZp d8) s⟩

/-- Settles O16: the address is the byte sum, zero-extended. -/
theorem ldaZeroPageXWrapsInPageZero : Obligations.LdaZeroPageXWrapsInPageZero := by
  intro d8 s
  dsimp only
  rw [← zext16_add]
  exact ⟨rfl, load_completes (.ldaZpX d8) s⟩

/-- Settles O17: the operand bytes are the address, low byte first. -/
theorem ldaAbsoluteLoadsFromItsAddress : Obligations.LdaAbsoluteLoadsFromItsAddress := by
  intro lo hi s
  dsimp only
  rw [← word_eq_ofNat]
  exact ⟨rfl, load_completes (.ldaAbs lo hi) s⟩

/-- Settles O18: the target is `X` past the word of the operand bytes, and the cross costs its penalty. -/
theorem ldaAbsoluteXAddsXAndChargesACross : Obligations.LdaAbsoluteXAddsXAndChargesACross := by
  intro lo hi s
  dsimp only
  rw [← word_toNat, ← indexed_eq_ofNat, ← add_crossPenalty_indexed]
  exact ⟨rfl, load_completes (.ldaAbsX lo hi) s⟩

/-- Settles O19: the target is `Y` past the word of the operand bytes, and the cross costs its penalty. -/
theorem ldaAbsoluteYAddsYAndChargesACross : Obligations.LdaAbsoluteYAddsYAndChargesACross := by
  intro lo hi s
  dsimp only
  rw [← word_toNat, ← indexed_eq_ofNat, ← add_crossPenalty_indexed]
  exact ⟨rfl, load_completes (.ldaAbsY lo hi) s⟩

/-- Settles O20: the pointer stands at the byte sum, and its content is the address. -/
theorem ldaIndirectXReadsThroughAnIndexedPointer : Obligations.LdaIndirectXReadsThroughAnIndexedPointer := by
  intro d8 s
  dsimp only
  rw [← zext16_add, ← zext16_add_succ, ← word_eq_ofNat, ← readWordZP_eq]
  exact ⟨rfl, load_completes (.ldaIndX d8) s⟩

/-- Settles O21: the pointer stands at the operand byte, the target is `Y` past its content, and the cross costs its
penalty. -/
theorem ldaIndirectYIndexesThePointersContent : Obligations.LdaIndirectYIndexesThePointersContent := by
  intro p s
  dsimp only
  rw [← zext16_eq_ofNat, ← zext16_succ, ← word_toNat, ← readWordZP_eq, ← indexed_eq_ofNat,
    ← add_crossPenalty_indexed]
  exact ⟨rfl, load_completes (.ldaIndY p) s⟩

/-! ## The family -/

theorem loadA_flag_zero (v : Byte) (s : State) : (loadA v s).flag .zero = decide (v.toNat = 0) :=
  (loadFlags_zero s.p v).trans (beq_zero_eq v)

theorem loadA_flag_negative (v : Byte) (s : State) : (loadA v s).flag .negative = decide (128 ≤ v.toNat) :=
  (loadFlags_negative s.p v).trans (getLsbD_seven v)

/-- Settles O22: the flags by value of what is loaded, and every instruction ends in a load. -/
theorem everyLoadSetsZeroAndNegativeFromItsValue : Obligations.EveryLoadSetsZeroAndNegativeFromItsValue := by
  refine ⟨fun v s => ?_, fun i s => ⟨_, exec_eq_afterLoad i s, ?_⟩⟩
  · rw [loadA_flag_zero, loadA_flag_negative]
    simp only [decide_eq_true_eq, decide_eq_false_iff_not]
    exact ⟨rfl, by omega, by omega, by omega⟩
  · have effect := loadEffect_afterLoad i i.operands.length s
    rw [effect.zero, effect.negative, effect.accumulator]
    exact ⟨rfl, rfl, by simp only [decide_eq_true_eq]; omega⟩

/-- The old accumulator is overwritten, and no instruction reads it (R83). -/
theorem afterLoad_setReg_A (i : Instr) (n : Nat) (s : State) (v : Byte) :
    afterLoad i n (s.setReg .A v) = afterLoad i n s := by
  cases i <;> rfl

/-- `X` is kept, and read only where the mode is indexed by it (R59, R83). -/
theorem afterLoad_setReg_X {i : Instr} (h : i.mode ∉ [Mode.zeroPageX, .absoluteX, .indirectX]) (n : Nat)
    (s : State) (v : Byte) : afterLoad i n (s.setReg .X v) = (afterLoad i n s).setReg .X v := by
  cases i with
  | ldaZpX | ldaAbsX | ldaIndX => exact absurd (by simp [Instr.mode]) h
  | _ => rfl

/-- `Y` is kept, and read only where the mode is indexed by it (R59, R83). -/
theorem afterLoad_setReg_Y {i : Instr} (h : i.mode ∉ [Mode.absoluteY, .indirectY]) (n : Nat) (s : State)
    (v : Byte) : afterLoad i n (s.setReg .Y v) = (afterLoad i n s).setReg .Y v := by
  cases i with
  | ldaAbsY | ldaIndY => exact absurd (by simp [Instr.mode]) h
  | _ => rfl

/-- Settles O23: the frame of a load, and what it does not read, register by register. -/
theorem loadsChangeAndReadNothingElse : Obligations.LoadsChangeAndReadNothingElse := by
  intro i s
  have effect := loadEffect_afterLoad i i.operands.length s
  refine ⟨_, exec_eq_afterLoad i s, effect.indexX, effect.indexY, effect.stackPointer, effect.otherFlags,
    effect.reservedBit, effect.memory, effect.everyByte, effect.phase, fun v => ?_, fun h v => ?_, fun h v => ?_⟩
  · rw [exec_eq_afterLoad, afterLoad_setReg_A]
  · rw [exec_eq_afterLoad, afterLoad_setReg_X h]
  · rw [exec_eq_afterLoad, afterLoad_setReg_Y h]

/-! ## The failures of the host's operations -/

/-- A response that the operation can give as far as failures go (R98): each failure has its operation and its cause. -/
def FailureAllowed (op : HostOp) : Response → Prop
  | .fatal cause => op = .step ∧ ∃ addr opcode, cause = .unknownOpcode addr opcode
  | .failed cause => ∃ addr v, op = .write addr v ∧ cause = .romWriteAttempt addr
  | .imageOverflow => ∃ bytes, op = .loadImage bytes
  | .done | .accepted | .byte _ | .cycles _ | .context _ | .refused _ => True

/-- A refusal is no failure. -/
theorem unlessHalted_failureAllowed {op : HostOp} {reply : Reply} (h : FailureAllowed op reply.response)
    (s : State) : FailureAllowed op (unlessHalted s reply).response := by
  rcases unlessHalted_cases s reply with ⟨-, e⟩ | ⟨-, e⟩ <;> rw [e]
  · trivial
  · exact h

theorem benchSet_failureAllowed (op : HostOp) (t s : State) : FailureAllowed op (benchSet t s).response := by
  rcases benchSet_cases t s with ⟨-, e⟩ | ⟨-, r, e⟩ <;> rw [e] <;> trivial

/-- A step that fails stops on an unknown opcode (R97). -/
theorem hostOp_step_failureAllowed (s : State) : FailureAllowed .step (hostOp .step s).response := by
  rcases hostOp_step_cases s with ⟨r, -, -, e⟩ | ⟨i, v, c, -, -, -, -, -, e⟩ | ⟨-, -, -, e⟩ <;> rw [e]
  · trivial
  · trivial
  · exact ⟨rfl, _, _, rfl⟩

/-- A write that fails is one to the read-only region (R96). -/
theorem hostOp_write_failureAllowed (addr : Word) (v : Byte) (s : State) :
    FailureAllowed (.write addr v) (hostOp (.write addr v) s).response := by
  rw [hostOp_write]
  split
  case isTrue => exact ⟨addr, v, rfl, rfl⟩
  case isFalse => exact unlessHalted_failureAllowed (by trivial) s

/-- An image that is not placed overflows, or is refused (R40, R100). -/
theorem hostOp_loadImage_failureAllowed (bytes : List Byte) (s : State) :
    FailureAllowed (.loadImage bytes) (hostOp (.loadImage bytes) s).response := by
  rw [hostOp_loadImage]
  split
  case isTrue => exact unlessHalted_failureAllowed (by trivial) s
  case isFalse => exact ⟨bytes, rfl⟩

theorem hostOp_failureAllowed {op : HostOp} {r : Response} (h : (hostOp op s).response = r) :
    FailureAllowed op r := by
  subst h
  cases op with
  | step => exact hostOp_step_failureAllowed s
  | write addr v => exact hostOp_write_failureAllowed addr v s
  | loadImage bytes => exact hostOp_loadImage_failureAllowed bytes s
  | read addr => rw [hostOp_read]; trivial
  | reset => exact unlessHalted_failureAllowed (by trivial) s
  | powerOn | contextQuery => trivial
  | setReg | setPc | setFlag => exact benchSet_failureAllowed _ _ s

/-- A step ends in a next state or is refused; it never answers a fault (log 3). -/
theorem step_ne_fault (s : State) (cause : Fault) : step s ≠ .fault cause := by
  rcases hostOp_step_cases s with ⟨r, e, -⟩ | ⟨i, v, c, -, -, -, -, e, -⟩ | ⟨-, -, e, -⟩ <;>
    simp only [e, ne_eq, reduceCtorEq, not_false_eq_true]

/-- Settles O47: every response is one its operation is allowed, and no step is a fault. -/
theorem onlyTheseFailuresArise : Obligations.OnlyTheseFailuresArise :=
  fun _ s => ⟨fun _ => hostOp_failureAllowed, fun _ => hostOp_failureAllowed, hostOp_failureAllowed,
    step_ne_fault s⟩

end Sys2Proof.Machine
end

section
/-! PROOFS. Fatal conditions and diagnostics (60_exceptions R97, R99, R107, R108): what an unknown opcode leaves, what a
fatal stop saves, and the context summary. -/

namespace Sys2Proof.Machine

variable {s : State}

/-- Settles O9: the byte has no row in the table, so the step passes it and stops, and the host gets the cause and
its report. -/
theorem unknownOpcodeStopsTheEngine : Obligations.UnknownOpcodeStopsTheEngine := by
  intro s op hs hread hop t
  subst hread
  have hunknown : decodeOpcode (s.memRead s.pc) = none := (decodeOpcode_eq_none_iff _).mpr hop
  have hstep : step s = .next t := step_unknown hs hunknown
  have hreply : hostOp .step s = stopped (.unknownOpcode s.pc (s.memRead s.pc)) t := hostOp_step_halted hstep rfl
  rw [hreply]
  exact ⟨hstep, rfl, rfl, ⟨fatalReport "step" _ t, List.mem_cons_self, rfl, rfl, rfl⟩, stepReads_unknown hs hunknown⟩

/-- Settles O48: `fatalStop` writes the phase. -/
theorem fatalStopSavesNothing : Obligations.FatalStopSavesNothing := fun _ _ => rfl

/-- Once the registers hold values the summary shows them (R108). -/
theorem context_of_ne_notReady (hs : s.phase ≠ .notReady) : s.context =
    { sp := some s.sp, pc := some s.pc, a := some s.a, x := some s.x, y := some s.y, p := s.p } := by
  cases hphase : s.phase with
  | notReady => exact absurd hphase hs
  | ready => simp only [State.context, hphase]
  | halted cause => exact context_of_halted hphase

/-- Settles O49: the query answers the summary of the state it is asked of. -/
theorem contextQueryShowsTheRegisters : Obligations.ContextQueryShowsTheRegisters :=
  fun _ => ⟨rfl, fun hs => congrArg Response.context (context_of_ne_notReady hs)⟩

end Sys2Proof.Machine
end
